-- ==== Sys2Proof/Word.lean ====
section
/-! DEFINITION. The word types of the CORE (00_scope.md rules R2 and R5). -/

namespace Sys2Proof

/-- A byte: a general register, a memory cell, an opcode or operand byte (R2: XLEN = CELL = 8). Bit 7 is the most
significant (R5). Every value is read as an unsigned integer (R100). -/
abbrev Byte := BitVec 8

/-- The program counter and every address the fetch unit forms: 9 bits (R2: PC_W = 9; R12). -/
abbrev PcWord := BitVec 9

/-- A register number, 0 to 7 (R2: NREG = 8; R10). -/
abbrev RegIdx := Fin 8

end Sys2Proof
end

