-- ==== Sys2Proof/Config.lean ====
section
/-! DEFINITION. The implementation parameters whose kind is "open" in 00_scope.md rule R2. Their default values stand in
Decode.lean. There is no free value: the hardware is deterministic (40_fetch_decode_cycle.md rule R86). -/

namespace Sys2Proof

/-- The open parameters of R2: the memory capacity and the eight opcode bytes. Every rule is stated for any legal
configuration (90_conflicts.md C9; R3). -/
structure Config where
  /-- MEM_CAP, the number of memory cells. -/
  memCap : Nat
  opcLdi : Byte
  opcPrn : Byte
  opcMul : Byte
  opcCmp : Byte
  opcJmp : Byte
  opcJeq : Byte
  opcJne : Byte
  opcHlt : Byte
  deriving DecidableEq, Repr

/-- The eight opcode bytes, in the order of R2. -/
def Config.opcodes (c : Config) : List Byte :=
  [c.opcLdi, c.opcPrn, c.opcMul, c.opcCmp, c.opcJmp, c.opcJeq, c.opcJne, c.opcHlt]

/-- A configuration of this hardware: `1 <= MEM_CAP <= 256` (R2) and eight pairwise different opcode bytes (R3). Any
other is refused (R3; 93_implementation_defined.md U17). -/
abbrev Config.Legal (c : Config) : Prop :=
  1 ≤ c.memCap ∧ c.memCap ≤ 256 ∧ c.opcodes.Nodup

end Sys2Proof
end

