-- ==== Sys2Proof/Syntax.lean ====
section
/-! DEFINITION. The instructions (30_encoding.md rules R50 and R55) and the names of the decoder's control signals (R63). -/

namespace Sys2Proof

/-- The recognized opcode set, by name (R55); the byte of each is a parameter (R3). -/
inductive Opcode where
  | ldi | prn | mul | cmp | jmp | jeq | jne | hlt
  deriving DecidableEq, Repr

/-- The four formats of R50. -/
inductive Format where
  /-- No operand, one byte. -/
  | Z
  /-- One register operand, two bytes. -/
  | R
  /-- Two register operands, three bytes. -/
  | RR
  /-- One register operand and one immediate, three bytes. -/
  | RI
  deriving DecidableEq, Repr

/-- The eight instructions, one constructor per row of the opcode table. A register operand is the WHOLE operand byte, as
the encoding has it (R52): values 8 to 255 are terms here, and the machine faults on them (R74). -/
inductive Instr where
  /-- R90. -/
  | ldi (regA imm : Byte)
  /-- R91. -/
  | prn (regA : Byte)
  /-- R97. -/
  | mul (regA regB : Byte)
  /-- R98. -/
  | cmp (regA regB : Byte)
  /-- R105. -/
  | jmp (regA : Byte)
  /-- R106. -/
  | jeq (regA : Byte)
  /-- R107. -/
  | jne (regA : Byte)
  /-- R115. -/
  | hlt
  deriving DecidableEq, Repr

/-- The opcode an instruction belongs to. -/
def Instr.opcode : Instr → Opcode
  | .ldi _ _ => .ldi
  | .prn _ => .prn
  | .mul _ _ => .mul
  | .cmp _ _ => .cmp
  | .jmp _ => .jmp
  | .jeq _ => .jeq
  | .jne _ => .jne
  | .hlt => .hlt

/-- The data of the register write port (R63, `wsel`). -/
inductive WriteSel where
  | imm | alu
  deriving DecidableEq, Repr

/-- The jump kind given to the jump/branch multiplexer (R63, R77). -/
inductive JumpKind where
  | none | always | ifE | ifNotE
  deriving DecidableEq, Repr

/-- The decoder's outputs (R63). A signal the table marks `-` is `Option.none`. -/
structure Control where
  nOps : BitVec 2
  aReg : Bool
  bReg : Bool
  aluOp : Option (BitVec 2)
  regWe : Bool
  wsel : Option WriteSel
  flagsWe : Bool
  outEn : Bool
  jmp : JumpKind
  halt : Bool
  illegal : Bool
  deriving DecidableEq, Repr

end Sys2Proof
end

