-- ==== Sys2Proof/WellFormed.lean ====
section
/-! DEFINITION. Which instruction terms have only legal operands (30_encoding.md rules R52 and R53). The step makes the
same check and faults where it fails (40_fetch_decode_cycle.md rule R74). -/

namespace Sys2Proof

/-- A register operand is legal if the whole byte is below 8 (R52). -/
abbrev legalReg (b : Byte) : Bool := decide (b.toNat < 8)

/-- Every register operand is legal; LDI's immediate is never checked (R53). -/
def Instr.wellFormed : Instr → Bool
  | .ldi a _ => legalReg a
  | .prn a => legalReg a
  | .mul a b => legalReg a && legalReg b
  | .cmp a b => legalReg a && legalReg b
  | .jmp a => legalReg a
  | .jeq a => legalReg a
  | .jne a => legalReg a
  | .hlt => true

end Sys2Proof
end

