-- ==== Sys2Proof/Decode.lean ====
section
/-! DEFINITION. The default parameter values, the opcode map, the decoder's control table, the decoder on bytes, the
encoder and the assembler notation (00_scope.md R2; 30_encoding.md R50 to R63). -/

namespace Sys2Proof

/-- The defaults of R2. MEM_CAP 255 is the source's figure (D6). UNVERIFIED (D1, log 2): the eight opcode bytes, which the
spec itself supplies from general knowledge. -/
def Config.default : Config where
  memCap := 255
  opcLdi := 0x82
  opcPrn := 0x47
  opcMul := 0xA2
  opcCmp := 0xA7
  opcJmp := 0x54
  opcJeq := 0x55
  opcJne := 0x56
  opcHlt := 0x01

/-- The opcode byte of each instruction (R55). -/
def Config.byteOf (c : Config) : Opcode → Byte
  | .ldi => c.opcLdi
  | .prn => c.opcPrn
  | .mul => c.opcMul
  | .cmp => c.opcCmp
  | .jmp => c.opcJmp
  | .jeq => c.opcJeq
  | .jne => c.opcJne
  | .hlt => c.opcHlt

/-- Whole-byte match against the recognized opcode set (R51, R55). The order of the tests does not matter in a legal
configuration (R3). -/
def recognise (c : Config) (b : Byte) : Option Opcode :=
  if b = c.opcLdi then some .ldi
  else if b = c.opcPrn then some .prn
  else if b = c.opcMul then some .mul
  else if b = c.opcCmp then some .cmp
  else if b = c.opcJmp then some .jmp
  else if b = c.opcJeq then some .jeq
  else if b = c.opcJne then some .jne
  else if b = c.opcHlt then some .hlt
  else none

/-- The format column of R55. -/
def Opcode.format : Opcode → Format
  | .ldi => .RI
  | .prn => .R
  | .mul => .RR
  | .cmp => .RR
  | .jmp => .R
  | .jeq => .R
  | .jne => .R
  | .hlt => .Z

/-- The operand count of a format (R50, R51). -/
def Format.nOps : Format → Nat
  | .Z => 0
  | .R => 1
  | .RR => 2
  | .RI => 2

/-- The operand count of an opcode (R51). -/
def Opcode.nOps (op : Opcode) : Nat := op.format.nOps

/-- The length in bytes: operand count + 1 (R50). -/
def Instr.length (i : Instr) : Nat := i.opcode.nOps + 1

/-- The instruction made of an opcode and its operand bytes; a byte the format does not have is not used (R59). -/
def assemble : Opcode → Byte → Byte → Instr
  | .ldi, a, b => .ldi a b
  | .prn, a, _ => .prn a
  | .mul, a, b => .mul a b
  | .cmp, a, b => .cmp a b
  | .jmp, a, _ => .jmp a
  | .jeq, a, _ => .jeq a
  | .jne, a, _ => .jne a
  | .hlt, _, _ => .hlt

/-- Why a byte sequence decodes to no instruction. -/
inductive DecodeError where
  /-- There is no opcode byte. -/
  | noOpcode
  /-- The opcode byte is none of the eight (R57). -/
  | unsupportedOpcode (b : Byte)
  /-- The bytes end before operand A. -/
  | missingOperandA (b : Byte)
  /-- The bytes end before operand B. -/
  | missingOperandB (b : Byte)
  deriving DecidableEq, Repr

/-- The operand bytes an opcode of the given format takes from the bytes after it, operand A first (R50). -/
def decodeOperands (ir : Byte) (op : Opcode) : Format → List Byte → Except DecodeError (Instr × List Byte)
  | .Z, rest => .ok (assemble op 0 0, rest)
  | .R, [] => .error (.missingOperandA ir)
  | .R, a :: rest => .ok (assemble op a 0, rest)
  | .RR, [] => .error (.missingOperandA ir)
  | .RR, [_] => .error (.missingOperandB ir)
  | .RR, a :: b :: rest => .ok (assemble op a b, rest)
  | .RI, [] => .error (.missingOperandA ir)
  | .RI, [_] => .error (.missingOperandB ir)
  | .RI, a :: b :: rest => .ok (assemble op a b, rest)

/-- The decoder: one instruction from the front of a byte sequence, with the bytes after it, or the reason there is
none. Operands are not judged here: a register operand of 8 or more decodes, and the step faults on it (R74). -/
def decode (c : Config) : List Byte → Except DecodeError (Instr × List Byte)
  | [] => .error .noOpcode
  | ir :: rest =>
    match recognise c ir with
    | none => .error (.unsupportedOpcode ir)
    | some op => decodeOperands ir op op.format rest

/-- The first `n` instructions of a byte sequence, read one after another without padding (20_memory.md R35). -/
def decodeMany (c : Config) : Nat → List Byte → Except DecodeError (List Instr)
  | 0, _ => .ok []
  | n + 1, bytes =>
    match decode c bytes with
    | .error e => .error e
    | .ok (i, rest) =>
      match decodeMany c n rest with
      | .error e => .error e
      | .ok is => .ok (i :: is)

/-- The bytes of an instruction in address order (R50). -/
def encode (c : Config) : Instr → List Byte
  | .ldi a imm => [c.opcLdi, a, imm]
  | .prn a => [c.opcPrn, a]
  | .mul a b => [c.opcMul, a, b]
  | .cmp a b => [c.opcCmp, a, b]
  | .jmp a => [c.opcJmp, a]
  | .jeq a => [c.opcJeq, a]
  | .jne a => [c.opcJne, a]
  | .hlt => [c.opcHlt]

/-- The first three bytes of a word numbered as the opcode table numbers it: byte k is bits 8k+7 to 8k, and every bit at
or above `nbits` is 0. -/
def tableBytes (nbits w : Nat) : List Byte :=
  let v := w % 2 ^ nbits
  [BitVec.ofNat 8 v, BitVec.ofNat 8 (v / 256), BitVec.ofNat 8 (v / 65536)]

/-- What the decoder, at the default parameters, reads from a word of the opcode table. -/
def decodeTableWord (nbits w : Nat) : Option Instr :=
  match decode Config.default (tableBytes nbits w) with
  | .ok (i, _) => some i
  | .error _ => none

/-- The control ROM (R63): the outputs of the decoder for each of the eight opcodes. ALUOP_MUL = 1, ALUOP_CMP = 2. -/
def Opcode.control : Opcode → Control
  | .ldi => ⟨2, true, false, none, true, some .imm, false, false, .none, false, false⟩
  | .prn => ⟨1, true, false, none, false, none, false, true, .none, false, false⟩
  | .mul => ⟨2, true, true, some 1, true, some .alu, false, false, .none, false, false⟩
  | .cmp => ⟨2, true, true, some 2, false, none, true, false, .none, false, false⟩
  | .jmp => ⟨1, true, false, none, false, none, false, false, .always, false, false⟩
  | .jeq => ⟨1, true, false, none, false, none, false, false, .ifE, false, false⟩
  | .jne => ⟨1, true, false, none, false, none, false, false, .ifNotE, false, false⟩
  | .hlt => ⟨0, false, false, none, false, none, false, false, .none, true, false⟩

/-- The last row of R63: `illegal` is 1 and every other output is inactive. -/
def Control.unsupported : Control :=
  ⟨0, false, false, none, false, none, false, false, .none, false, true⟩

/-- The combinational decoder: control signals from the opcode byte alone (R63). -/
def controlOf (c : Config) (ir : Byte) : Control :=
  match recognise c ir with
  | some op => op.control
  | none => Control.unsupported

/-- One decimal digit. -/
def digit (n : Nat) : Char := Char.ofNat (48 + n)

/-- A byte in unsigned decimal, without sign, leading zeros or padding (10_state.md R18; R60). -/
def decimal (b : Byte) : List Char :=
  let n := b.toNat
  if n < 10 then [digit n]
  else if n < 100 then [digit (n / 10), digit (n % 10)]
  else [digit (n / 100), digit (n / 10 % 10), digit (n % 10)]

/-- The mnemonic in capitals (R60). -/
def Opcode.mnemonic : Opcode → List Char
  | .ldi => ['L', 'D', 'I']
  | .prn => ['P', 'R', 'N']
  | .mul => ['M', 'U', 'L']
  | .cmp => ['C', 'M', 'P']
  | .jmp => ['J', 'M', 'P']
  | .jeq => ['J', 'E', 'Q']
  | .jne => ['J', 'N', 'E']
  | .hlt => ['H', 'L', 'T']

/-- The notation of R60: mnemonic, space, operands separated by a comma, registers as `R` and an index, the immediate in
decimal. -/
def Instr.assembly (i : Instr) : List Char :=
  i.opcode.mnemonic ++
    match i with
    | .ldi a imm => [' ', 'R'] ++ decimal a ++ [','] ++ decimal imm
    | .prn a => [' ', 'R'] ++ decimal a
    | .mul a b => [' ', 'R'] ++ decimal a ++ [',', 'R'] ++ decimal b
    | .cmp a b => [' ', 'R'] ++ decimal a ++ [',', 'R'] ++ decimal b
    | .jmp a => [' ', 'R'] ++ decimal a
    | .jeq a => [' ', 'R'] ++ decimal a
    | .jne a => [' ', 'R'] ++ decimal a
    | .hlt => []

end Sys2Proof
end

