-- ==== Sys2Proof/Machine/State.lean ====
section
/-! DEFINITION. The state of the CORE (10_state.md rules R10 to R24), the reasons a step can stop, and the state after
reset (R23). -/

namespace Sys2Proof.Machine

/-- Memory (20_memory.md R30): the cells that hold something other than 0, as (address, byte) pairs with strictly rising
addresses. An address that is not listed reads as `Memory.unlisted`. -/
abbrev Memory := List Host.Cell

/-- Whether the core steps (R14). There is no fourth value (93_implementation_defined.md E1). -/
inductive RunState where
  | running | halted | faulted
  deriving DecidableEq, Repr

/-- The three independent one-bit flags (R13): Equal, Less-than, Greater-than. They are not a packed register. -/
structure Flags where
  E : Bool
  L : Bool
  G : Bool
  deriving DecidableEq, Repr

/-- `fault_cause` (R15, 60_exceptions.md R120). -/
inductive FaultCause where
  | none | unsupportedOpcode | unsupportedAluOperation | outOfRangeAccess
  deriving DecidableEq, Repr

/-- `fault_sub` (R15): which check raised an OutOfRangeAccess. -/
inductive FaultSub where
  | none | opcodeFetch | operandFetch | regIndex
  deriving DecidableEq, Repr

/-- The fault record (R15): five fields, written once, by the step that raises a fault. -/
structure FaultRecord where
  cause : FaultCause
  sub : FaultSub
  /-- `fault_pc`: the `pc` of the faulting instruction. -/
  pc : PcWord
  /-- `fault_opcode`: its opcode byte, 0 if none was read. -/
  opcode : Byte
  /-- `fault_info`: the offending address, index, opcode or select. -/
  info : PcWord
  deriving DecidableEq, Repr

/-- No fault recorded: every field zero (R23). -/
def FaultRecord.clear : FaultRecord := ⟨.none, .none, 0, 0, 0⟩

/-- What a check raises, before `pc` is added to make the record (60_exceptions.md R120 to R123). -/
inductive Raise where
  /-- The byte at `pc` is not a recognized opcode (R121). -/
  | unsupportedOpcode (ir : Byte)
  /-- The ALU was asked for a select outside ADD, MUL and CMP (R123). -/
  | unsupportedAluOperation (ir : Byte) (select : BitVec 2)
  /-- The opcode's address is out of range (40_fetch_decode_cycle.md R71). -/
  | opcodeFetch (addr : PcWord)
  /-- An operand byte's address is out of range (R73). -/
  | operandFetch (ir : Byte) (addr : PcWord)
  /-- A register operand is 8 or more (R74). -/
  | regIndex (ir operand : Byte)
  deriving DecidableEq, Repr

/-- The state (R20). -/
structure State where
  /-- The implementation parameters (00_scope.md R2). The MODEL's field, not state of the hardware: the fixed type of
  `step` leaves no other place for them, and nothing ever writes it (DESIGN CHOICE, log 1). -/
  cfg : Config
  /-- The eight general registers R0 to R7 (R10). -/
  x : Vector Byte 8
  /-- The program counter (R12). -/
  pc : PcWord
  /-- E, L and G (R13). -/
  flags : Flags
  /-- Memory (R30). -/
  mem : Memory
  /-- `run_state` (R14). -/
  runState : RunState
  /-- `fault_cause`, `fault_sub`, `fault_pc`, `fault_opcode`, `fault_info` (R15). -/
  fault : FaultRecord
  /-- Every value PRN has emitted, oldest first (R18). -/
  out : List Byte
  deriving DecidableEq, Repr

/-- Why there is no next state. A FAULT OF THE HARDWARE IS NOT ONE OF THESE: it is a next state whose `runState` is
`faulted` (60_exceptions.md R127; log 6). -/
inductive Fault where
  /-- Raised by `step` alone, in a state that is HALTED: there is no step (40_fetch_decode_cycle.md R70). Safe: the
  hardware makes no step there either (log 4). -/
  | halted
  /-- Raised by `step` alone, in a state that is FAULTED: there is no step (R70, R128). Safe, as for `halted`. -/
  | faulted
  deriving DecidableEq, Repr

/-- Why the model gives a step no meaning. -/
inductive Refusal where
  /-- Raised by an arm of `exec` for an instruction without a meaning; no arm does. Safe. -/
  | notModelled (mnemonic : String)
  /-- Raised by `step` alone, when the parameters are no configuration of this hardware (00_scope.md R3, "a model
  refuses it"). Safe. -/
  | illegalConfiguration
  deriving DecidableEq, Repr

/-- The state after reset (R23, 70_reset_and_hazards.md R141): every field zero, `run_state` RUNNING, at the default
parameters. Every value is the spec's. -/
def State.reset : State where
  cfg := Config.default
  x := Vector.replicate 8 0
  pc := 0
  flags := ⟨false, false, false⟩
  mem := []
  runState := .running
  fault := FaultRecord.clear
  out := []

/-- The three outcomes of a step of this machine. -/
abbrev Result := Host.Outcome State Fault Refusal

end Sys2Proof.Machine
end

