-- ==== Sys2Proof/Machine/Ops.lean ====
section
/-! DEFINITION. The named operations over memory, registers, the program counter and the output, and taking a fault
(20_memory.md R30 to R44; 10_state.md R10 to R18; 60_exceptions.md R120 to R128). -/

namespace Sys2Proof.Machine

/-! ### Memory -/

/-- What an address that is not listed reads as: "default 0 for never-written cells" (R31, R23). -/
def Memory.unlisted : Byte := 0

/-- The canonical form: addresses strictly rising, no entry equal to what an unlisted address reads as. -/
abbrev Memory.wf (m : Memory) : Prop :=
  m.Pairwise (fun p q => p.1 < q.1) ∧ ∀ cell ∈ m, cell.2 ≠ Memory.unlisted

/-- Every listed cell exists: its address is below the capacity (R30). -/
abbrev Memory.below (cap : Nat) (m : Memory) : Prop := ∀ cell ∈ m, cell.1 < cap

/-- The stored byte at an address, without a bounds check. -/
def Memory.read : Memory → Nat → Byte
  | [], _ => Memory.unlisted
  | (k, v) :: m, a => if k = a then v else Memory.read m a

/-- A cell in front of a memory, unless it holds what an unlisted address reads as. -/
def Memory.put (a : Nat) (v : Byte) (m : Memory) : Memory :=
  if v = Memory.unlisted then m else (a, v) :: m

/-- Set the byte at an address, keeping the canonical form. -/
def Memory.write : Memory → Nat → Byte → Memory
  | [], a, v => Memory.put a v []
  | (k, w) :: m, a, v =>
    if a < k then Memory.put a v ((k, w) :: m)
    else if a = k then Memory.put a v m
    else (k, w) :: Memory.write m a v

/-- `MemRead(addr, 1)` (R31): out of range at and above the capacity, else the stored byte; never wraps (R44). -/
def memRead (cap : Nat) (m : Memory) (addr : PcWord) : Option Byte :=
  if addr.toNat < cap then some (m.read addr.toNat) else none

/-- `MemWrite(addr, 1, v)` (R32): the same bounds contract; stores `v mod 256`. No instruction uses it. -/
def memWrite (cap : Nat) (m : Memory) (addr v : Nat) : Option Memory :=
  if addr < cap then some (m.write addr (BitVec.ofNat 8 v)) else none

/-! ### Registers, program counter, flags, output, run state -/

/-- `zext_9` (00_scope.md R5). -/
def zext9 (b : Byte) : PcWord := b.setWidth 9

/-- `x[r]` (R10). -/
def State.readReg (s : State) (r : RegIdx) : Byte := s.x[r]

/-- `x[r] <- v` (R10). No register is hard-wired. -/
def State.writeReg (s : State) (r : RegIdx) (v : Byte) : State := { s with x := s.x.set r v }

/-- `pc <- t` (R12). -/
def State.setPc (s : State) (t : PcWord) : State := { s with pc := t }

/-- The PC adder (40_fetch_decode_cycle.md R76): `pc + n_ops + 1`, a 9-bit sum. -/
def pcAdder (pc : PcWord) (nOps : Nat) : PcWord := pc + BitVec.ofNat 9 (nOps + 1)

/-- Go on to the next instruction: past the opcode byte and `nOps` operand bytes. -/
def State.advance (s : State) (nOps : Nat) : State := s.setPc (pcAdder s.pc nOps)

/-- Write all three flags at once (R13, 42_alu.md R99). -/
def State.setFlags (s : State) (f : Flags) : State := { s with flags := f }

/-- `Emit(v)` (R18, 41_load_immediate_and_output.md R91): append to the output stream. It never stalls (D13, log 8). -/
def State.emit (s : State) (v : Byte) : State := { s with out := s.out ++ [v] }

/-- `halt` (R14, 44_halt.md R115). -/
def State.halt (s : State) : State := { s with runState := .halted }

/-! ### Taking a fault -/

/-- The record of a fault raised by the instruction at `pc` (the table of 60_exceptions.md R120). -/
def Raise.record (pc : PcWord) : Raise → FaultRecord
  | .unsupportedOpcode ir => ⟨.unsupportedOpcode, .none, pc, ir, zext9 ir⟩
  | .unsupportedAluOperation ir sel => ⟨.unsupportedAluOperation, .none, pc, ir, sel.setWidth 9⟩
  | .opcodeFetch addr => ⟨.outOfRangeAccess, .opcodeFetch, pc, 0, addr⟩
  | .operandFetch ir addr => ⟨.outOfRangeAccess, .operandFetch, pc, ir, addr⟩
  | .regIndex ir operand => ⟨.outOfRangeAccess, .regIndex, pc, ir, zext9 operand⟩

/-- Taking a fault (R127): `run_state` becomes FAULTED and the record is written; everything else, `pc` included, is
unchanged. Control goes nowhere: there is no vector, handler or mode. -/
def State.takeFault (s : State) (r : Raise) : State :=
  { s with runState := .faulted, fault := r.record s.pc }

/-- Applying `rst` (R23, 70_reset_and_hazards.md R140): every field of the state to its reset value, whatever it was. The
hardware has no return from a fault (R128); this is the only way out of HALTED and FAULTED. The parameters are not state
and stay. -/
def State.applyReset (s : State) : State := { State.reset with cfg := s.cfg }

/-! ### The numeric codes of the status outputs -/

/-- R14: RUNNING 0, HALTED 1, FAULTED 2. -/
def RunState.code : RunState → BitVec 2
  | .running => 0
  | .halted => 1
  | .faulted => 2

/-- R15, R120: the cause codes. -/
def FaultCause.code : FaultCause → BitVec 2
  | .none => 0
  | .unsupportedOpcode => 1
  | .unsupportedAluOperation => 2
  | .outOfRangeAccess => 3

/-- R20: the sub-kind codes. -/
def FaultSub.code : FaultSub → BitVec 2
  | .none => 0
  | .opcodeFetch => 1
  | .operandFetch => 2
  | .regIndex => 3

end Sys2Proof.Machine
end

