-- ==== Sys2Proof/Machine/Flags.lean ====
section
/-! DEFINITION. The flag logic (42_alu.md R98, R99). -/

namespace Sys2Proof.Machine

/-- The three flag outputs for unsigned `a` and `b` (R99). Unsigned is the spec's decision D4 (log 10). -/
def compareFlags (a b : Byte) : Flags where
  E := decide (a.toNat = b.toNat)
  L := decide (a.toNat < b.toNat)
  G := decide (b.toNat < a.toNat)

/-- The flag registers after a step: all three written when `flags_we` is set, none otherwise (R99). -/
def flagLogic (flagsWe : Bool) (next old : Flags) : Flags :=
  if flagsWe then next else old

end Sys2Proof.Machine
end

