-- ==== Sys2Proof/Machine/Operands.lean ====
section
/-! DEFINITION. The register operand check every instruction with a register operand makes
(40_fetch_decode_cycle.md R74, 30_encoding.md R52). -/

namespace Sys2Proof.Machine

/-- A register operand is the whole byte; 8 and above name no register and are not masked (R52, D10). -/
def regIndex (b : Byte) : Option RegIdx :=
  if h : b.toNat < 8 then some ⟨b.toNat, h⟩ else none

/-- Operand A is a register index: fault with REG_INDEX if it names no register, else go on (R74). The check is made
whether or not the register is used. `op` gives `fault_opcode`, the opcode byte of the instruction. -/
def withRegA (op : Opcode) (a : Byte) (s : State) (k : RegIdx → State) : Result :=
  match regIndex a with
  | some ra => .next (k ra)
  | none => .next (s.takeFault (.regIndex (s.cfg.byteOf op) a))

/-- Operands A and B are register indices; A is checked before B (R74, R79). -/
def withRegAB (op : Opcode) (a b : Byte) (s : State) (k : RegIdx → RegIdx → State) : Result :=
  match regIndex a with
  | none => .next (s.takeFault (.regIndex (s.cfg.byteOf op) a))
  | some ra => withRegA op b s (k ra)

end Sys2Proof.Machine
end

