-- ==== Sys2Proof/Machine/Alu.lean ====
section
/-! DEFINITION. The ALU (42_alu.md R95 to R102) and the instructions that use it, MUL and CMP. -/

namespace Sys2Proof.Machine

/-- Addition modulo 256 (R96). No instruction selects it (30_encoding.md R58). -/
def aluAdd (a b : Byte) : Byte := BitVec.ofNat 8 ((a.toNat + b.toNat) % 256)

/-- Multiplication: the low 8 bits of the exact product of the unsigned factors (R97, R100). -/
def aluMul (a b : Byte) : Byte := BitVec.ofNat 8 ((a.toNat * b.toNat) % 256)

/-- The meaningful output of the ALU (R95): `alu_result` for ADD and MUL, `e_next`, `l_next`, `g_next` for CMP. The other
output has no meaning and no value here. -/
inductive AluOut where
  | result (v : Byte)
  | flags (f : Flags)
  deriving DecidableEq, Repr

/-- The ALU as a block (R95): 2-bit select, 0 ADD, 1 MUL, 2 CMP; select 3 is unassigned and gives no output
(UnsupportedALUOperation, 60_exceptions.md R123). -/
def aluBlock (select : BitVec 2) (a b : Byte) : Option AluOut :=
  if select = 0 then some (.result (aluAdd a b))
  else if select = 1 then some (.result (aluMul a b))
  else if select = 2 then some (.flags (compareFlags a b))
  else none

/-- The source's contract `apply(operation, regA, regB)` (R95): ADD and MUL write the first register and no flag, CMP
writes the flags and no register (R102), any other select raises UnsupportedALUOperation. -/
def aluApply (select : BitVec 2) (ir : Byte) (ra rb : RegIdx) (s : State) : Except Raise State :=
  match aluBlock select (s.readReg ra) (s.readReg rb) with
  | some (.result v) => .ok (s.writeReg ra v)
  | some (.flags f) => .ok (s.setFlags f)
  | none => .error (.unsupportedAluOperation ir select)

/-- MUL (R97): `x[opA] <- (x[opA] * x[opB]) mod 256; pc <- pc + 3`; no flag. -/
def execMul (a b : Byte) (s : State) : Result :=
  withRegAB .mul a b s fun ra rb =>
    (s.writeReg ra (aluMul (s.readReg ra) (s.readReg rb))).advance 2

/-- CMP (R98): E, L and G all written, exactly one of them 1; `pc <- pc + 3`; no register. -/
def execCmp (a b : Byte) (s : State) : Result :=
  withRegAB .cmp a b s fun ra rb =>
    (s.setFlags (compareFlags (s.readReg ra) (s.readReg rb))).advance 2

end Sys2Proof.Machine
end

