-- ==== Sys2Proof/Machine/Halt.lean ====
section
/-! DEFINITION. HLT (44_halt.md R115). -/

namespace Sys2Proof.Machine

/-- HLT (R115): `run_state <- HALTED` and nothing else; `pc` keeps the address of the HLT. -/
def execHlt (s : State) : Result := .next s.halt

end Sys2Proof.Machine
end

