-- ==== Sys2Proof/Machine/Jump.lean ====
section
/-! DEFINITION. JMP, JEQ and JNE (43_control_transfer.md R105 to R108). -/

namespace Sys2Proof.Machine

/-- A taken jump: the register's content, zero-extended, absolute, with nothing added and no check of the target
(R77, R108). -/
def State.jumpTo (s : State) (r : RegIdx) : State := s.setPc (zext9 (s.readReg r))

/-- A conditional jump: taken, or past its own two bytes (R77). -/
def State.jumpIf (s : State) (taken : Bool) (r : RegIdx) : State :=
  if taken then s.jumpTo r else s.advance 1

/-- JMP (R105): `pc <- zext_9(x[opA])`. -/
def execJmp (a : Byte) (s : State) : Result :=
  withRegA .jmp a s fun ra => s.jumpTo ra

/-- JEQ (R106): taken if `E == 1`, with E as it was before the step. -/
def execJeq (a : Byte) (s : State) : Result :=
  withRegA .jeq a s fun ra => s.jumpIf s.flags.E ra

/-- JNE (R107): taken if `E == 0`; L and G are not looked at. -/
def execJne (a : Byte) (s : State) : Result :=
  withRegA .jne a s fun ra => s.jumpIf (!s.flags.E) ra

end Sys2Proof.Machine
end

