-- ==== Sys2Proof/Machine/LoadOutput.lean ====
section
/-! DEFINITION. LDI and PRN (41_load_immediate_and_output.md R90, R91). -/

namespace Sys2Proof.Machine

/-- LDI (R90): `x[opA] <- opB; pc <- pc + 3`. The immediate is never checked. -/
def execLdi (a imm : Byte) (s : State) : Result :=
  withRegA .ldi a s fun ra => (s.writeReg ra imm).advance 2

/-- PRN (R91): `Emit(x[opA]); pc <- pc + 2`. -/
def execPrn (a : Byte) (s : State) : Result :=
  withRegA .prn a s fun ra => (s.emit (s.readReg ra)).advance 1

end Sys2Proof.Machine
end

