-- ==== Sys2Proof/Machine/Dispatch.lean ====
section
/-! DEFINITION. One arm per instruction (40_fetch_decode_cycle.md R75). -/

namespace Sys2Proof.Machine

def exec (i : Instr) (s : State) : Host.Outcome State Fault Refusal :=
  match i with
  | .ldi regA imm => Sys2Proof.Machine.execLdi regA imm s
  | .prn regA => Sys2Proof.Machine.execPrn regA s
  | .mul regA regB => Sys2Proof.Machine.execMul regA regB s
  | .cmp regA regB => Sys2Proof.Machine.execCmp regA regB s
  | .jmp regA => Sys2Proof.Machine.execJmp regA s
  | .jeq regA => Sys2Proof.Machine.execJeq regA s
  | .jne regA => Sys2Proof.Machine.execJne regA s
  | .hlt => Sys2Proof.Machine.execHlt s

end Sys2Proof.Machine
end

