-- ==== Sys2Proof/Machine/Fetch.lean ====
section
/-! DEFINITION. The instruction fetch unit (40_fetch_decode_cycle.md R71 to R73). -/

namespace Sys2Proof.Machine

/-- Opcode fetch (R71). -/
def State.fetchOpcode (s : State) : Except Raise Byte :=
  match memRead s.cfg.memCap s.mem s.pc with
  | some b => .ok b
  | none => .error (.opcodeFetch s.pc)

/-- The address of the byte `k` places after the opcode: a 9-bit sum (20_memory.md R44). -/
def State.operandAddr (s : State) (k : Nat) : PcWord := s.pc + BitVec.ofNat 9 k

/-- Operand fetch (R73): operand A is `k = 1`, operand B is `k = 2`. -/
def State.fetchOperand (s : State) (ir : Byte) (k : Nat) : Except Raise Byte :=
  match memRead s.cfg.memCap s.mem (s.operandAddr k) with
  | some b => .ok b
  | none => .error (.operandFetch ir (s.operandAddr k))

/-- The operand bytes the instruction has, and no others, operand A first (R73, D7; log 7). -/
def State.fetchOperands (s : State) (ir : Byte) (op : Opcode) : Except Raise Instr :=
  if op.nOps = 0 then .ok (assemble op 0 0)
  else
    match s.fetchOperand ir 1 with
    | .error r => .error r
    | .ok a =>
      if op.nOps = 1 then .ok (assemble op a 0)
      else
        match s.fetchOperand ir 2 with
        | .error r => .error r
        | .ok b => .ok (assemble op a b)

/-- Fetch and decode in the order of R79: opcode address, opcode recognized, operand A's address, operand B's address. -/
def State.fetchInstr (s : State) : Except Raise Instr :=
  match s.fetchOpcode with
  | .error r => .error r
  | .ok ir =>
    match recognise s.cfg ir with
    | none => .error (.unsupportedOpcode ir)
    | some op => s.fetchOperands ir op

/-- The bytes that exist from `pc` on, at most the longest instruction's three. -/
def State.bytesAtPc (s : State) : List Byte :=
  ((List.range 3).map (s.pc.toNat + ·)).filter (· < s.cfg.memCap) |>.map s.mem.read

/-- The 9-bit addresses that pass the bounds check inside the fetch unit, in order (R71, R73; 20_memory.md R31): those of
the instruction's own bytes, each only if it is in range, and none after a check has failed. -/
def State.readAddrs (s : State) : List PcWord :=
  match s.fetchOpcode with
  | .error _ => []
  | .ok ir =>
    match recognise s.cfg ir with
    | none => [s.pc]
    | some op =>
      s.pc :: ((List.range op.nOps).map fun k => s.operandAddr (k + 1)).filter
        fun addr => decide (addr.toNat < s.cfg.memCap)

/-- What the step drives on the 8-bit port `mem_addr`, in order (10_state.md R22): an address that passed the bounds check
fits in 8 bits. A machine that is HALTED or FAULTED makes no step (R70) and reads no cell. -/
def State.fetchAddrs (s : State) : List Byte :=
  match s.runState with
  | .running => s.readAddrs.map fun addr => addr.setWidth 8
  | .halted => []
  | .faulted => []

/-- Store bytes at rising addresses, leaving out those at or above the capacity. -/
def storeBytes (cap : Nat) : Nat → List Byte → Memory → Memory
  | _, [], m => m
  | a, b :: bs, m => storeBytes cap (a + 1) bs (if a < cap then m.write a b else m)

end Sys2Proof.Machine
end

