-- ==== Sys2Proof/Machine/Step.lean ====
section
/-! DEFINITION. The step (40_fetch_decode_cycle.md R70 to R81). -/

namespace Sys2Proof.Machine

/-- One step (R81): exactly one instruction, or exactly one fault, and only if `run_state` is RUNNING (R70). A fault
raised by the fetch is taken here; the register index checks (R74) are made by the meanings `exec` calls. -/
def step (s : State) : Host.Outcome State Fault Refusal :=
  if s.cfg.Legal then
    match s.runState with
    | .halted => .fault .halted
    | .faulted => .fault .faulted
    | .running =>
      match s.fetchInstr with
      | .error r => .next (s.takeFault r)
      | .ok i => exec i s
  else .refused .illegalConfiguration

/-- The instruction with these bits stored at `pc` (log 12, log 13). The machine simply fetches at `pc`. -/
def State.withFetchWord (s : State) (nbits w : Nat) : State :=
  { s with mem := storeBytes s.cfg.memCap s.pc.toNat (tableBytes nbits w) s.mem }

end Sys2Proof.Machine
end

