-- ==== Sys2Proof/Machine/Datapath.lean ====
section
/-! DEFINITION. The same step put together from the six sub-blocks and the signals between them
(40_fetch_decode_cycle.md R76, R77, R85; 30_encoding.md R63). `step` is written from the rules R70 to R81 and the
instruction rules; this file is written from the control table and the block table. -/

namespace Sys2Proof.Machine

/-- The operand latches at the end of the fetch (R73): `n_ops` from the decoder says which are read. A latch that is not
read is taken as 0, and no selected signal uses it (log 21). -/
def fetchLatches (s : State) (ir : Byte) (nOps : BitVec 2) : Except Raise (Byte × Byte) :=
  if nOps = 0 then .ok (0, 0)
  else
    match s.fetchOperand ir 1 with
    | .error r => .error r
    | .ok opA =>
      if nOps = 1 then .ok (opA, 0)
      else
        match s.fetchOperand ir 2 with
        | .error r => .error r
        | .ok opB => .ok (opA, opB)

/-- `index_fault` of the register file (R74, R85): the check on the whole byte, operand A before operand B. -/
def indexFault (ctl : Control) (ir opA opB : Byte) : Option Raise :=
  if ctl.aReg && decide (8 ≤ opA.toNat) then some (.regIndex ir opA)
  else if ctl.bReg && decide (8 ≤ opB.toNat) then some (.regIndex ir opB)
  else none

/-- The index ports take the low three bits, `opA[2:0]` and `opB[2:0]` (R85). -/
def indexPort (operand : Byte) : RegIdx := ⟨operand.toNat % 8, Nat.mod_lt _ (by decide)⟩

/-- Is the jump taken (R77)? -/
def jumpTaken (jmp : JumpKind) (e : Bool) : Bool :=
  match jmp with
  | .none => false
  | .always => true
  | .ifE => e
  | .ifNotE => !e

/-- The jump/branch multiplexer (R77). -/
def nextPc (halt taken : Bool) (pc seq : PcWord) (raData : Byte) : PcWord :=
  if halt then pc else if taken then zext9 raData else seq

/-- The register write port's data (R63, R85): `opB` or `alu_result`, as `wsel` says. -/
def writeData (wsel : Option WriteSel) (opB : Byte) (alu : Option AluOut) : Option Byte :=
  match wsel, alu with
  | some .imm, _ => some opB
  | some .alu, some (.result v) => some v
  | _, _ => none

/-- The register file after the step: one write, to the register operand A names, if `reg_we` is set (R11, R85). -/
def registerFile (regWe : Bool) (ra : RegIdx) (data : Option Byte) (x : Vector Byte 8) : Vector Byte 8 :=
  match regWe, data with
  | true, some v => x.set ra v
  | _, _ => x

/-- The flag outputs of the ALU, if it has any. -/
def aluFlags (alu : Option AluOut) (old : Flags) : Flags :=
  match alu with
  | some (.flags f) => f
  | _ => old

/-- The commit (R80, R85): all writes of the step together, every read from the state at its start. `alu` is the ALU's
output where the decoder uses it. -/
def commit (s : State) (ctl : Control) (opA opB : Byte) (alu : Option AluOut) : State :=
  { s with
    x := registerFile ctl.regWe (indexPort opA) (writeData ctl.wsel opB alu) s.x
    pc := nextPc ctl.halt (jumpTaken ctl.jmp s.flags.E) s.pc (pcAdder s.pc ctl.nOps.toNat)
      (s.readReg (indexPort opA))
    flags := flagLogic ctl.flagsWe (aluFlags alu s.flags) s.flags
    out := if ctl.outEn then s.out ++ [s.readReg (indexPort opA)] else s.out
    runState := if ctl.halt then .halted else s.runState }

/-- The ALU's part of the step (R95): not used, used, or asked for a select it does not have (R123). -/
def aluStage (s : State) (ctl : Control) (ir opA opB : Byte) : Except Raise (Option AluOut) :=
  match ctl.aluOp with
  | none => .ok none
  | some select =>
    match aluBlock select (s.readReg (indexPort opA)) (s.readReg (indexPort opB)) with
    | none => .error (.unsupportedAluOperation ir select)
    | some o => .ok (some o)

/-- Decode, operand fetch, index check, ALU and commit, driven by the control signals alone. -/
def datapathBody (s : State) (ctl : Control) (ir : Byte) : Except Raise State :=
  if ctl.illegal then .error (.unsupportedOpcode ir)
  else
    match fetchLatches s ir ctl.nOps with
    | .error r => .error r
    | .ok (opA, opB) =>
      match indexFault ctl ir opA opB with
      | some r => .error r
      | none =>
        match aluStage s ctl ir opA opB with
        | .error r => .error r
        | .ok alu => .ok (commit s ctl opA opB alu)

/-- The step as the six sub-blocks make it (R85). -/
def datapathStep (s : State) : Result :=
  if s.cfg.Legal then
    match s.runState with
    | .halted => .fault .halted
    | .faulted => .fault .faulted
    | .running =>
      match s.fetchOpcode with
      | .error r => .next (s.takeFault r)
      | .ok ir =>
        match datapathBody s (controlOf s.cfg ir) ir with
        | .error r => .next (s.takeFault r)
        | .ok t => .next t
  else .refused .illegalConfiguration

end Sys2Proof.Machine
end

