-- ==== Sys2Proof/Machine/HostPort.lean ====
section
/-! DEFINITION. What the host can do to the core and see of it (70_reset_and_hazards.md R140 to R148; 10_state.md R18, R21,
R22). -/

namespace Sys2Proof.Machine

/-! ### What the host sees -/

/-- The status outputs (R22), visible at any time (R21). -/
structure StatusPorts where
  runState : BitVec 2
  faultCause : BitVec 2
  faultSub : BitVec 2
  faultPc : PcWord
  faultOpcode : Byte
  faultInfo : PcWord
  deriving DecidableEq, Repr

/-- The values on the status outputs in a state (R14, R15, R22). -/
def State.statusPorts (s : State) : StatusPorts where
  runState := s.runState.code
  faultCause := s.fault.cause.code
  faultSub := s.fault.sub.code
  faultPc := s.fault.pc
  faultOpcode := s.fault.opcode
  faultInfo := s.fault.info

/-- Has the run ended (R146)? -/
def State.ended (s : State) : Bool := s.runState != .running

/-- What the host can read of the machine only after the run has ended (R21). -/
structure FinalView where
  x : Vector Byte 8
  pc : PcWord
  flags : Flags
  mem : Memory
  deriving DecidableEq, Repr

/-- The final view: nothing while the core is RUNNING (R21). -/
def State.finalView (s : State) : Option FinalView :=
  if s.ended then some ⟨s.x, s.pc, s.flags, s.mem⟩ else none

/-- `out_valid` and `out_data` (R18, R22): the value pulsed in the step that leads from `s` to `t`, if it emitted one. -/
def outPulse (s t : State) : Option Byte := (t.out.drop s.out.length).head?

/-- The host's rendering of the output stream: one line per value, in execution order (R18). The line end itself is not
fixed (91_not_in_source.md N8). -/
def State.printed (s : State) : List (List Char) := s.out.map decimal

/-! ### What the host does -/

/-- Write an image at rising addresses through the host port (R142), or nothing if an address does not exist. -/
def loadBytes (cap : Nat) : Nat → List Byte → Memory → Option Memory
  | _, [], m => some m
  | a, b :: bs, m =>
    match memWrite cap m a b.toNat with
    | none => none
    | some m' => loadBytes cap (a + 1) bs m'

/-- Reset, then load the image at address 0 (R140, R142). An image longer than memory gives no launch (R143 P5, D16). -/
def launchState (cfg : Config) (image : List Byte) : Option State :=
  match loadBytes cfg.memCap 0 image [] with
  | none => none
  | some m => some { State.reset with cfg := cfg, mem := m }

/-- The bit a character of a literal stands for. -/
def digitBit (d : Char) : Option Bool :=
  if d = '0' then some false else if d = '1' then some true else none

/-- The bits of a row of digits after those already read, the first the most significant (00_scope.md R5). -/
def digitBits : Byte → List Char → Option Byte
  | v, [] => some v
  | v, d :: ds =>
    match digitBit d with
    | none => none
    | some b => digitBits ((v <<< 1) ||| (BitVec.ofBool b).setWidth 8) ds

/-- A literal of the program text (30_encoding.md R61): eight characters `0` or `1`, most significant bit first. Anything
else is malformed, a parse error (60_exceptions.md R124). -/
def literal (ds : List Char) : Option Byte :=
  if ds.length = 8 then digitBits 0 ds else none

/-- White space at both ends left out (DESIGN CHOICE, log 24). -/
def trimBlanks (ds : List Char) : List Char :=
  ((ds.dropWhile Char.isWhitespace).reverse.dropWhile Char.isWhitespace).reverse

/-- One line of the program text (R61): what stands before a `#` is blank, or one literal. -/
def parseLine (line : List Char) : Option (Option Byte) :=
  match trimBlanks (line.takeWhile (· ≠ '#')) with
  | [] => some none
  | ds =>
    match literal ds with
    | some b => some (some b)
    | none => none

/-- The program image a text stands for (R61): the n-th literal is the byte at address n; a malformed line gives no image,
and so no launch (R124). -/
def parseProgram : List (List Char) → Option (List Byte)
  | [] => some []
  | line :: lines =>
    match parseLine line, parseProgram lines with
    | some none, some bs => some bs
    | some (some b), some bs => some (b :: bs)
    | _, _ => none

/-- The launch premises P1 to P6 (R143). -/
structure LaunchPremises (image : List Byte) (s : State) : Prop where
  p1_regs : ∀ r, s.readReg r = 0
  p1_pc : s.pc = 0
  p1_flags : s.flags = ⟨false, false, false⟩
  p2_running : s.runState = .running
  p2_noFault : s.fault = ⟨.none, .none, 0, 0, 0⟩
  p3_out : s.out = []
  p4_image : ∀ n, (h : n < image.length) → s.mem.read n = image[n]
  p4_zero : ∀ n, image.length ≤ n → s.mem.read n = 0
  p5_fits : image.length ≤ s.cfg.memCap
  p6_legal : s.cfg.Legal

/-- Where one machine stands between two resets: no step is taken before launch (R148, D23). What holds the core is open;
this is only the order reset, load, launch, run (log 17). -/
inductive Phase where
  | loading | launched
  deriving DecidableEq, Repr

/-- The core and its phase. -/
structure System where
  phase : Phase
  core : State
  deriving DecidableEq, Repr

/-- A machine with the given parameters, just reset. -/
def System.start (cfg : Config) : System := ⟨.loading, { State.reset with cfg := cfg }⟩

/-- Everything that can happen (the table of R148, and the core's own step). -/
inductive Event where
  /-- The host applies `rst`. -/
  | reset
  /-- The host writes one cell (`ld_we`, `ld_addr`, `ld_data`). -/
  | load (addr data : Nat)
  /-- The host lets the core run. -/
  | launch
  /-- The core makes one step. -/
  | step
  deriving DecidableEq, Repr

/-- What is not an interaction of R148, by name. -/
inductive HostRefusal where
  /-- A write at or above MEM_CAP: the launch is refused (R143 P5). -/
  | imageTooLong
  /-- A write after launch: the port is closed until the next reset (20_memory.md R42). -/
  | writePortClosed
  /-- A second launch without a reset between. -/
  | alreadyLaunched
  /-- A step before launch (R70). -/
  | notLaunched
  /-- The parameters are no configuration (R143 P6), or the core refused the step. -/
  | core (r : Refusal)
  deriving DecidableEq, Repr

/-- What an event does (R140, R142, R143, R148). -/
def System.apply (y : System) : Event → Host.Outcome System Fault HostRefusal
  | .reset => .next ⟨.loading, y.core.applyReset⟩
  | .load addr data =>
    match y.phase with
    | .launched => .refused .writePortClosed
    | .loading =>
      match memWrite y.core.cfg.memCap y.core.mem addr data with
      | none => .refused .imageTooLong
      | some m => .next ⟨.loading, { y.core with mem := m }⟩
  | .launch =>
    match y.phase with
    | .launched => .refused .alreadyLaunched
    | .loading =>
      if y.core.cfg.Legal then .next ⟨.launched, y.core⟩ else .refused (.core .illegalConfiguration)
  | .step =>
    match y.phase with
    | .loading => .refused .notLaunched
    | .launched =>
      match Sys2Proof.Machine.step y.core with
      | .next t => .next ⟨.launched, t⟩
      | .fault f => .fault f
      | .refused r => .refused (.core r)

/-- A sequence of events, stopping at the first that gives no next state. -/
def System.applyAll (y : System) : List Event → Host.Outcome System Fault HostRefusal
  | [] => .next y
  | e :: es =>
    match y.apply e with
    | .next z => z.applyAll es
    | .fault f => .fault f
    | .refused r => .refused r

end Sys2Proof.Machine
end

