-- ==== Sys2Proof/Safety.lean ====
section
/-! DEFINITION. What the states of a run keep to, and the terms the statements use. -/

namespace Sys2Proof.Machine

/-- A step is possible: a configuration of this hardware (00_scope.md R3), and RUNNING (40_fetch_decode_cycle.md R70). -/
abbrev State.Ready (s : State) : Prop := s.cfg.Legal ∧ s.runState = .running

/-- The byte `k` places after the opcode, if its address exists (20_memory.md R31). -/
def State.byteAt? (s : State) (k : Nat) : Option Byte :=
  if s.pc.toNat + k < s.cfg.memCap then some (s.mem.read (s.pc.toNat + k)) else none

/-- The state a fault leaves (60_exceptions.md R127): FAULTED, with the given record, and nothing else changed. -/
def State.faultedWith (s : State) (f : FaultRecord) : State := { s with runState := .faulted, fault := f }

/-- The faults of an instruction that its bytes alone decide (40_fetch_decode_cycle.md R71, R73): no byte at `pc`; or, with
the opcode byte `opc` there and `nOps` operands, no byte for operand A, or none for operand B. -/
def State.FetchFaults (s : State) (opc : Byte) (nOps : Nat) : Prop :=
  (s.byteAt? 0 = none →
    step s = .next (s.faultedWith ⟨.outOfRangeAccess, .opcodeFetch, s.pc, 0, s.pc⟩)) ∧
  (s.byteAt? 0 = some opc → 1 ≤ nOps → s.byteAt? 1 = none →
    step s = .next (s.faultedWith ⟨.outOfRangeAccess, .operandFetch, s.pc, opc, s.pc + 1⟩)) ∧
  (s.byteAt? 0 = some opc → nOps = 2 → s.byteAt? 1 ≠ none → s.byteAt? 2 = none →
    step s = .next (s.faultedWith ⟨.outOfRangeAccess, .operandFetch, s.pc, opc, s.pc + 2⟩))

/-- The state a register operand that names no register leaves (R74). -/
def State.badIndex (s : State) (opc operand : Byte) : State :=
  s.faultedWith ⟨.outOfRangeAccess, .regIndex, s.pc, opc, operand.setWidth 9⟩

/-- The value a sequence of decimal digits stands for. -/
def digitsValue (ds : List Char) : Nat := ds.foldl (fun n d => 10 * n + (d.toNat - 48)) 0

/-- A byte as a literal of the program text, most significant bit first (30_encoding.md R61, 00_scope.md R5). -/
def bitChars (b : Byte) : List Char := (List.range 8).map fun k => if b.getLsbD (7 - k) then '1' else '0'

/-- A line of the program text: a body with something before and after it, and a comment or none (30_encoding.md R61). -/
def textLine (pre body post : List Char) (comment : Option (List Char)) : List Char :=
  pre ++ body ++ post ++
    match comment with
    | none => []
    | some c => '#' :: c

/-- Nothing but white space. -/
def Blank (ds : List Char) : Prop := ∀ d ∈ ds, d.isWhitespace = true

/-- Two states that differ at most in the flags L and G. -/
def State.sameButLG (s t : State) : Prop := t = { s with flags := ⟨s.flags.E, t.flags.L, t.flags.G⟩ }

/-- The register a legal operand byte names, as the operand byte. -/
def regByte (r : RegIdx) : Byte := BitVec.ofNat 8 r.val

/-- How many flags are 1. -/
def Flags.count (f : Flags) : Nat := f.E.toNat + f.L.toNat + f.G.toNat

/-- The values the fields of the record take together (10_state.md R15, 60_exceptions.md R120), for a memory of `cap`
cells. UnsupportedALUOperation is never recorded (R123). -/
def FaultRecord.Sound (cap : Nat) (f : FaultRecord) : Prop :=
  match f.cause, f.sub with
  | .none, .none => f.pc = 0 ∧ f.opcode = 0 ∧ f.info = 0
  | .unsupportedOpcode, .none => f.info.toNat = f.opcode.toNat
  | .outOfRangeAccess, .opcodeFetch => f.opcode = 0 ∧ f.info = f.pc ∧ cap ≤ f.info.toNat ∧ f.info.toNat ≤ 256
  | .outOfRangeAccess, .operandFetch => f.info.toNat = cap
  | .outOfRangeAccess, .regIndex => 8 ≤ f.info.toNat ∧ f.info.toNat ≤ 255
  | _, _ => False

/-- What every state of a run keeps to. -/
structure State.Inv (s : State) : Prop where
  /-- Memory is in its canonical form. -/
  memWf : s.mem.wf
  /-- Only cells that exist are listed (20_memory.md R30). -/
  memBelow : s.mem.below s.cfg.memCap
  /-- The PC is at most MEM_CAP, or a jump target of at most 255 (40_fetch_decode_cycle.md R78). -/
  pcBound : s.pc.toNat ≤ max s.cfg.memCap 255
  /-- At most one flag is set (10_state.md R13). -/
  flagsOneHot : s.flags.count ≤ 1
  /-- `fault_cause != 0` if and only if `run_state == FAULTED` (R15). -/
  causeIffFaulted : s.fault.cause ≠ .none ↔ s.runState = .faulted
  /-- `pc == fault_pc` in every FAULTED state (60_exceptions.md R127). -/
  faultPc : s.runState = .faulted → s.fault.pc = s.pc
  /-- The fields of the record fit together. -/
  record : s.fault.Sound s.cfg.memCap

end Sys2Proof.Machine
end

