-- ==== Sys2Proof/Certificates/Slice0/Obligations.lean ====
section
/-! DEFINITION. The statements for the provers. `s.byteAt? k` is the byte k places after the opcode, if its address exists;
`regByte r` is the operand byte that names register r; `s.faultedWith f` is `s` FAULTED with the record `f`. -/

open Sys2Proof Sys2Proof.Machine

/-! ### Encoding and decoding -/

/-- The encoder and the decoder agree on every instruction, whatever its operand bytes and whatever follows it, and on
every sequence of instructions laid one after another (R50 to R53, R35). -/
def Obligations.DecodeEncodeRoundTrip : Prop :=
  ∀ c : Config, c.Legal →
    (∀ (i : Instr) (rest : List Byte), decode c (encode c i ++ rest) = .ok (i, rest)) ∧
    ∀ (is : List Instr) (rest : List Byte), decodeMany c is.length (is.flatMap (encode c) ++ rest) = .ok is

/-- Bytes that decode to an instruction are exactly that instruction's encoding: each byte sequence has one meaning, and
no byte after the instruction plays a part (R51, R59). No premise on the configuration is needed. -/
def Obligations.DecodedBytesAreTheEncoding : Prop :=
  ∀ (c : Config) (i : Instr) (bytes rest : List Byte), decode c bytes = .ok (i, rest) → bytes = encode c i ++ rest

/-- Words written out from the table of R55, at its default opcode bytes (log 2), decode to the instructions they stand
for. -/
def Obligations.WrittenWordsDecode : Prop :=
  decodeTableWord 24 0x080082 = some (.ldi 0 8) ∧ decodeTableWord 16 0x0547 = some (.prn 5) ∧
  decodeTableWord 24 0x0100A2 = some (.mul 0 1) ∧ decodeTableWord 24 0x0502A7 = some (.cmp 2 5) ∧
  decodeTableWord 16 0x0354 = some (.jmp 3) ∧ decodeTableWord 16 0x0255 = some (.jeq 2) ∧
  decodeTableWord 16 0x0756 = some (.jne 7) ∧ decodeTableWord 8 0x01 = some .hlt ∧
  decodeTableWord 8 0x00 = none ∧ decodeTableWord 8 0xA0 = none ∧ decodeTableWord 8 0xFF = none

/-- R57: every byte that is not one of the eight is unsupported, and with the defaults that is 248 byte values. -/
def Obligations.OtherBytesAreUnsupported : Prop :=
  (∀ (c : Config) (b : Byte) (rest : List Byte),
    b ∉ c.opcodes ↔ decode c (b :: rest) = .error (.unsupportedOpcode b)) ∧
  ((List.range 256).filter fun n => (recognise Config.default (BitVec.ofNat 8 n)).isNone).length = 248

/-- R63: the decoder's outputs for the eight opcode bytes and for every other byte, whose `n_ops` the table leaves open. An
output that is not used is `none`. -/
def Obligations.DecoderOutputsAreTheTable : Prop :=
  ∀ c : Config, c.Legal →
    controlOf c c.opcLdi = ⟨2, true, false, none, true, some .imm, false, false, .none, false, false⟩ ∧
    controlOf c c.opcPrn = ⟨1, true, false, none, false, none, false, true, .none, false, false⟩ ∧
    controlOf c c.opcMul = ⟨2, true, true, some 1, true, some .alu, false, false, .none, false, false⟩ ∧
    controlOf c c.opcCmp = ⟨2, true, true, some 2, false, none, true, false, .none, false, false⟩ ∧
    controlOf c c.opcJmp = ⟨1, true, false, none, false, none, false, false, .always, false, false⟩ ∧
    controlOf c c.opcJeq = ⟨1, true, false, none, false, none, false, false, .ifE, false, false⟩ ∧
    controlOf c c.opcJne = ⟨1, true, false, none, false, none, false, false, .ifNotE, false, false⟩ ∧
    controlOf c c.opcHlt = ⟨0, false, false, none, false, none, false, false, .none, true, false⟩ ∧
    (∀ b, b ∉ c.opcodes →
      ∃ n, controlOf c b = ⟨n, false, false, none, false, none, false, false, .none, false, true⟩) ∧
    ∀ b, (controlOf c b).aluOp ≠ some 0 ∧ (controlOf c b).aluOp ≠ some 3

/-! ### Reset, launch and the host -/

/-- R23: applying reset zeroes every field, whatever the state was, and the state after reset is that state. -/
def Obligations.ResetZeroesEverything : Prop :=
  ∀ s : State,
    (∀ r, s.applyReset.readReg r = 0) ∧ s.applyReset.pc = 0 ∧ s.applyReset.flags = ⟨false, false, false⟩ ∧
    (∀ a, s.applyReset.mem.read a = 0) ∧ s.applyReset.runState = .running ∧
    s.applyReset.fault = ⟨.none, .none, 0, 0, 0⟩ ∧ s.applyReset.out = [] ∧
    State.reset.applyReset = State.reset

/-- A configuration that is not one of this hardware is refused (R3, R2). That the step is where it is refused is the model's
choice (log 5). -/
def Obligations.IllegalConfigurationIsRefused : Prop :=
  ∀ s : State, ¬ s.cfg.Legal → step s = .refused .illegalConfiguration

/-- R143: an image that fits is loaded into a state that meets the launch premises P1 to P6; a longer one is no launch;
and the run of the empty image ends in its first step where 0 is no opcode byte. -/
def Obligations.LaunchStatesMeetThePremises : Prop :=
  ∀ (cfg : Config) (image : List Byte), cfg.Legal →
    (image.length ≤ cfg.memCap →
      ∃ s, launchState cfg image = some s ∧ s.cfg = cfg ∧ LaunchPremises image s) ∧
    (cfg.memCap < image.length → launchState cfg image = none) ∧
    (0 ∉ cfg.opcodes → ∃ s, launchState cfg [] = some s ∧
      step s = .next (s.faultedWith ⟨.unsupportedOpcode, .none, 0, 0, 0⟩))

/-- R142, R148: the host's writes of an image, one cell at a time through the write port of a machine just reset, and then
launch, bring the machine to the launch state of that image. The phases are the model's form of the order (log 17). -/
def Obligations.LoadingThenLaunchReachesTheLaunchState : Prop :=
  ∀ (cfg : Config) (image : List Byte) (s : State), cfg.Legal → launchState cfg image = some s →
    (System.start cfg).applyAll
      ((List.range image.length).map (fun n => Event.load n (image.getD n 0).toNat) ++ [.launch])
      = .next ⟨.launched, s⟩

/-- The program text stands for its literals in order (R61): each line holds one literal or nothing, with white space
around it and then a comment or none, an empty one included. A line whose text before the comment is something else, by its
characters, gives no image. That white space around a literal is ignored is the model's choice (log 24). -/
def Obligations.ProgramTextRule : Prop :=
  (∀ lines : List (Option Byte × List Char × List Char × Option (List Char)),
    (∀ l ∈ lines, Blank l.2.1 ∧ Blank l.2.2.1) →
    parseProgram (lines.map fun (b, pre, post, comment) => textLine pre ((b.map bitChars).getD []) post comment) =
      some (lines.filterMap (·.1))) ∧
  ∀ (lines : List (List Char)) (pre body post : List Char) (comment : Option (List Char)),
    Blank pre → Blank post → body ≠ [] → '#' ∉ body →
    (∀ d, body.head? = some d → d.isWhitespace = false) → (∀ d, body.getLast? = some d → d.isWhitespace = false) →
    ¬ (body.length = 8 ∧ ∀ d ∈ body, d = '0' ∨ d = '1') →
    textLine pre body post comment ∈ lines → parseProgram lines = none

/-- R142: the order of the loader's writes does not matter. -/
def Obligations.LoaderWritesCommute : Prop :=
  ∀ (m : Memory) (a b : Nat) (v w : Byte), m.wf → a ≠ b → (m.write a v).write b w = (m.write b w).write a v

/-- R42: from launch until the next reset the write port is closed and memory is constant, whatever happens. The
phases and the names of the refusals are the model's (log 17). -/
def Obligations.MemoryIsConstantFromLaunchToReset : Prop :=
  ∀ y : System, y.phase = .launched →
    (∀ a v, y.apply (.load a v) = .refused .writePortClosed) ∧
    ∀ (es : List Event) (z : System), Event.reset ∉ es → y.applyAll es = .next z →
      z.phase = .launched ∧ ∀ a, z.core.mem.read a = y.core.mem.read a

/-- R21, R14, R15, R22: what the host sees. The run state and all five fields of the fault record are visible in every
state, the enumerations by these codes; the rest only after the run has ended. -/
def Obligations.HostViewOfTheState : Prop :=
  ∀ s : State,
    (s.runState = .running → s.statusPorts.runState = 0 ∧ s.finalView = none) ∧
    (s.runState = .halted → s.statusPorts.runState = 1 ∧ s.finalView = some ⟨s.x, s.pc, s.flags, s.mem⟩) ∧
    (s.runState = .faulted → s.statusPorts.runState = 2 ∧ s.finalView = some ⟨s.x, s.pc, s.flags, s.mem⟩) ∧
    (s.fault.cause = .none ↔ s.statusPorts.faultCause = 0) ∧
    (s.fault.cause = .unsupportedOpcode ↔ s.statusPorts.faultCause = 1) ∧
    (s.fault.cause = .unsupportedAluOperation ↔ s.statusPorts.faultCause = 2) ∧
    (s.fault.cause = .outOfRangeAccess ↔ s.statusPorts.faultCause = 3) ∧
    (s.fault.sub = .none ↔ s.statusPorts.faultSub = 0) ∧ (s.fault.sub = .opcodeFetch ↔ s.statusPorts.faultSub = 1) ∧
    (s.fault.sub = .operandFetch ↔ s.statusPorts.faultSub = 2) ∧
    (s.fault.sub = .regIndex ↔ s.statusPorts.faultSub = 3) ∧
    s.statusPorts.faultPc = s.fault.pc ∧ s.statusPorts.faultOpcode = s.fault.opcode ∧
    s.statusPorts.faultInfo = s.fault.info

/-! ### Memory -/

/-- R31, R44: an address at or above the capacity is out of range, 255 to 257 and the rest alike, and never wraps to a
cell; below it the read gives the stored byte, 0 for a cell never written. -/
def Obligations.ReadsAreBoundsChecked : Prop :=
  ∀ (cap : Nat) (m : Memory) (addr : PcWord), m.wf →
    (cap ≤ addr.toNat → memRead cap m addr = none) ∧
    (addr.toNat < cap → memRead cap m addr = some (m.read addr.toNat)) ∧
    (∀ v, (addr.toNat, v) ∈ m → m.read addr.toNat = v) ∧
    ((∀ cell ∈ m, cell.1 ≠ addr.toNat) → m.read addr.toNat = 0)

/-- R32: the write port has the same bounds contract, stores the value modulo 256 and has no other effect; and no
instruction writes memory. -/
def Obligations.HostWriteContract : Prop :=
  ∀ (cap : Nat) (m : Memory) (addr v : Nat), m.wf →
    (cap ≤ addr → memWrite cap m addr v = none) ∧
    (addr < cap → ∃ m', memWrite cap m addr v = some m' ∧ m'.wf ∧ (m'.read addr).toNat = v % 256 ∧
      ∀ b, b ≠ addr → m'.read b = m.read b) ∧
    ∀ s t : State, step s = .next t → ∀ b, t.mem.read b = s.mem.read b

/-! ### The step -/

/-- R70, R128: a step is made exactly if the machine is RUNNING; in HALTED and FAULTED there is none. The names
of the two outcomes are the model's (log 4). -/
def Obligations.StepsExactlyWhileRunning : Prop :=
  ∀ s : State, s.cfg.Legal →
    ((∃ t, step s = .next t) ↔ s.runState = .running) ∧
    (s.runState = .halted → step s = .fault .halted) ∧ (s.runState = .faulted → step s = .fault .faulted)

/-- A step runs the decoded instruction: where the bytes from `pc` on decode, the step is the meaning of that
instruction, and nothing is added around it. -/
def Obligations.StepRunsTheDecodedInstruction : Prop :=
  ∀ (s : State) (i : Instr) (rest : List Byte), s.Ready → decode s.cfg s.bytesAtPc = .ok (i, rest) → step s = exec i s

/-- R71: the opcode byte is fetched from `pc`, and a `pc` at or above the capacity is OPCODE_FETCH. -/
def Obligations.OpcodeFetchRule : Prop :=
  ∀ s : State,
    (s.pc.toNat < s.cfg.memCap → s.fetchOpcode = .ok (s.mem.read s.pc.toNat)) ∧
    (s.Ready → s.cfg.memCap ≤ s.pc.toNat →
      step s = .next (s.faultedWith ⟨.outOfRangeAccess, .opcodeFetch, s.pc, 0, s.pc⟩))

/-- R121: UnsupportedOpcode is recorded exactly when the byte at `pc` is none of the eight, with these fields, and no
operand byte is read. -/
def Obligations.UnsupportedOpcodeRule : Prop :=
  ∀ (s : State) (ir : Byte), s.Ready → s.byteAt? 0 = some ir →
    (ir ∉ s.cfg.opcodes →
      step s = .next (s.faultedWith ⟨.unsupportedOpcode, .none, s.pc, ir, ir.setWidth 9⟩) ∧
      s.fetchAddrs = [s.pc.setWidth 8]) ∧
    (ir ∈ s.cfg.opcodes → ∀ t, step s = .next t → t.runState = .faulted → t.fault.cause ≠ .unsupportedOpcode)

/-- R37: running into a cell never written is UnsupportedOpcode with opcode 0, where 0 is no opcode byte. -/
def Obligations.UnwrittenMemoryIsUnsupportedOpcode : Prop :=
  ∀ s : State, s.Ready → s.pc.toNat < s.cfg.memCap → (∀ cell ∈ s.mem, cell.1 ≠ s.pc.toNat) → 0 ∉ s.cfg.opcodes →
    step s = .next (s.faultedWith ⟨.unsupportedOpcode, .none, s.pc, 0, 0⟩)

/-- R79: the checks in their fixed order, the first that fails ending the step, and nothing but effects after all have
passed. -/
def Obligations.ChecksInTheirFixedOrder : Prop :=
  ∀ s : State, s.Ready →
    (s.byteAt? 0 = none → step s = .next (s.faultedWith ⟨.outOfRangeAccess, .opcodeFetch, s.pc, 0, s.pc⟩)) ∧
    (∀ ir, s.byteAt? 0 = some ir → (∀ op, ir ≠ s.cfg.byteOf op) →
      step s = .next (s.faultedWith ⟨.unsupportedOpcode, .none, s.pc, ir, ir.setWidth 9⟩)) ∧
    ∀ op, s.byteAt? 0 = some (s.cfg.byteOf op) →
      (1 ≤ op.nOps → s.byteAt? 1 = none →
        step s = .next (s.faultedWith ⟨.outOfRangeAccess, .operandFetch, s.pc, s.cfg.byteOf op, s.pc + 1⟩)) ∧
      (op.nOps = 2 → s.byteAt? 1 ≠ none → s.byteAt? 2 = none →
        step s = .next (s.faultedWith ⟨.outOfRangeAccess, .operandFetch, s.pc, s.cfg.byteOf op, s.pc + 2⟩)) ∧
      ∀ a b, (1 ≤ op.nOps → s.byteAt? 1 = some a) → (op.nOps = 2 → s.byteAt? 2 = some b) →
        (op.control.aReg = true → 8 ≤ a.toNat → step s = .next (s.badIndex (s.cfg.byteOf op) a)) ∧
        (op.control.bReg = true → a.toNat < 8 → 8 ≤ b.toNat → step s = .next (s.badIndex (s.cfg.byteOf op) b)) ∧
        ((op.control.aReg = true → a.toNat < 8) → (op.control.bReg = true → b.toNat < 8) →
          ∃ t, step s = .next t ∧ t.runState ≠ .faulted ∧ t.fault = s.fault)

/-- R75: the complete set of conditions under which a step faults. The bytes from `pc` on decode to no instruction (R71,
R72, R73), or to one with a register operand that names no register (R74). -/
def Obligations.CompleteSetOfFaultConditions : Prop :=
  ∀ s t : State, step s = .next t →
    (t.runState = .faulted ↔
      ∀ i rest, decode s.cfg s.bytesAtPc = .ok (i, rest) → i.wellFormed = false)

/-- R122: OutOfRangeAccess is recorded under exactly three conditions: no byte at `pc`; no byte for an operand the
instruction has; a register operand that names no register. In each the record holds these fields: `fault_info` is the offending address, or
the offending byte, operand A where that is 8 or more and else operand B. -/
def Obligations.OutOfRangeAccessRule : Prop :=
  ∀ s t : State, step s = .next t →
    (t.runState = .faulted ∧ t.fault.cause = .outOfRangeAccess ↔
      s.byteAt? 0 = none ∨
      (∃ op k, s.byteAt? 0 = some (s.cfg.byteOf op) ∧ 1 ≤ k ∧ k ≤ op.nOps ∧ s.byteAt? k = none) ∨
      ∃ i rest, decode s.cfg s.bytesAtPc = .ok (i, rest) ∧ i.wellFormed = false) ∧
    (t.runState = .faulted → t.fault.cause = .outOfRangeAccess →
      t.fault.pc = s.pc ∧
      ((t.fault.sub = .opcodeFetch ∧ s.byteAt? 0 = none ∧ t.fault.opcode = 0 ∧ t.fault.info = s.pc) ∨
        (∃ op k, s.byteAt? 0 = some (s.cfg.byteOf op) ∧ 1 ≤ k ∧ k ≤ op.nOps ∧ s.byteAt? k = none ∧
          t.fault.sub = .operandFetch ∧ t.fault.opcode = s.cfg.byteOf op ∧ t.fault.info.toNat = s.pc.toNat + k ∧
          t.fault.info.toNat = s.cfg.memCap) ∨
        ∃ i rest, decode s.cfg s.bytesAtPc = .ok (i, rest) ∧ i.wellFormed = false ∧ t.fault.sub = .regIndex ∧
          t.fault.opcode = s.cfg.byteOf i.opcode ∧
          ∃ a, s.byteAt? 1 = some a ∧
            (8 ≤ a.toNat ∧ t.fault.info = a.setWidth 9 ∨
              a.toNat < 8 ∧ ∃ b, s.byteAt? 2 = some b ∧ 8 ≤ b.toNat ∧ t.fault.info = b.setWidth 9)))

/-- R127: the step that raises a fault writes `run_state` and the record, with `fault_pc = pc`, and nothing else. -/
def Obligations.FaultingStepWritesOnlyTheRecord : Prop :=
  ∀ s t : State, step s = .next t → t.runState = .faulted →
    t = { s with runState := .faulted, fault := t.fault } ∧ t.fault.pc = s.pc

/-- R123: the ALU raises UnsupportedALUOperation on select 3 alone, the record it would leave has these fields, and no
step of the core ever records it. -/
def Obligations.UnsupportedAluOperationIsNeverRaised : Prop :=
  (∀ (select : BitVec 2) (ir : Byte) (ra rb : RegIdx) (s : State),
    (select = 3 ↔ aluApply select ir ra rb s = .error (.unsupportedAluOperation ir select)) ∧
    s.takeFault (.unsupportedAluOperation ir select) =
      s.faultedWith ⟨.unsupportedAluOperation, .none, s.pc, ir, select.setWidth 9⟩) ∧
  ∀ s t : State, step s = .next t → t.runState = .faulted → t.fault.cause ≠ .unsupportedAluOperation

/-- R85: the six sub-blocks, driven by the decoder's control signals, make the same step. -/
def Obligations.SubBlocksMakeTheSameStep : Prop := ∀ s : State, datapathStep s = step s

/-- R76: the PC adder, for the operand count of each opcode. -/
def Obligations.PcAdderRule : Prop :=
  ∀ pc : PcWord, pc.toNat ≤ 255 →
    (∀ op : Opcode, (pcAdder pc op.nOps).toNat = pc.toNat + op.nOps + 1) ∧
    Opcode.hlt.nOps = 0 ∧ Opcode.prn.nOps = 1 ∧ Opcode.jmp.nOps = 1 ∧ Opcode.jeq.nOps = 1 ∧ Opcode.jne.nOps = 1 ∧
    Opcode.ldi.nOps = 2 ∧ Opcode.mul.nOps = 2 ∧ Opcode.cmp.nOps = 2

/-- R77: the jump/branch multiplexer, when a jump is taken, and which kind of jump each instruction asks for. One that is not
taken goes on past its own two bytes. -/
def Obligations.JumpMultiplexerRule : Prop :=
  ∀ (jmp : JumpKind) (e taken : Bool) (pc seq : PcWord) (data : Byte),
    nextPc true taken pc seq data = pc ∧ (nextPc false true pc seq data).toNat = data.toNat ∧
    nextPc false false pc seq data = seq ∧
    (jumpTaken jmp e = true ↔ jmp = .always ∨ (jmp = .ifE ∧ e = true) ∨ (jmp = .ifNotE ∧ e = false)) ∧
    (∀ op : Opcode, (op.control.jmp = .always ↔ op = .jmp) ∧ (op.control.jmp = .ifE ↔ op = .jeq) ∧
      (op.control.jmp = .ifNotE ↔ op = .jne) ∧ (op.control.halt = true ↔ op = .hlt) ∧
      (op.control.jmp ≠ .none → nextPc false false pc (pcAdder pc op.nOps) data = pc + 2))

/-- R78: what the PC is after a step that does not fault, as an exact number: the successor, which is at most MEM_CAP; a
jump target, which is at most 255; or, after HLT, what it was. It never wraps. -/
def Obligations.PcNeverWraps : Prop :=
  ∀ (s t : State) (i : Instr) (rest : List Byte), step s = .next t → t.runState ≠ .faulted →
    decode s.cfg s.bytesAtPc = .ok (i, rest) →
    (t.pc.toNat = s.pc.toNat + i.length ∧ t.pc.toNat ≤ s.cfg.memCap ∧ i ≠ .hlt) ∨
    (∃ r, (i = .jmp (regByte r) ∨ i = .jeq (regByte r) ∨ i = .jne (regByte r)) ∧ t.pc.toNat = (s.readReg r).toNat) ∨
    (i = .hlt ∧ t.pc = s.pc)

/-- R22, R33, R73: the addresses the core drives on `mem_addr` are in range, and where the bytes decode they are exactly
those of the instruction's own bytes; a machine that is not RUNNING drives none (R70). -/
def Obligations.OnlyTheInstructionsBytesAreRead : Prop :=
  ∀ s : State, s.cfg.Legal →
    (∀ addr ∈ s.fetchAddrs, addr.toNat < s.cfg.memCap) ∧
    (s.runState ≠ .running → s.fetchAddrs = []) ∧
    ∀ i rest, s.runState = .running → decode s.cfg s.bytesAtPc = .ok (i, rest) →
      s.fetchAddrs.map BitVec.toNat = List.range' s.pc.toNat i.length

/-- R59, R73: no byte but those addressed affects the step. -/
def Obligations.OtherMemoryDoesNotAffectTheStep : Prop :=
  ∀ (s t : State) (m : Memory), (∀ addr ∈ s.fetchAddrs, m.read addr.toNat = s.mem.read addr.toNat) →
    step s = .next t → step { s with mem := m } = .next { t with mem := m }

/-! ### The instructions: each rule, over the bytes in memory -/

/-- R90: LDI, faults and effect. -/
def Obligations.LdiRule : Prop :=
  Config.default.opcLdi = 0x82 ∧ ∀ s : State, s.Ready → s.FetchFaults s.cfg.opcLdi 2 ∧
    ∀ a imm, s.byteAt? 0 = some s.cfg.opcLdi → s.byteAt? 1 = some a → s.byteAt? 2 = some imm →
      (8 ≤ a.toNat → step s = .next (s.badIndex s.cfg.opcLdi a)) ∧
      ∀ r, a = regByte r → step s = .next { s with x := s.x.set r imm, pc := s.pc + 3 }

/-- R91: PRN, faults and effect; the pulse on the output port is the register's value. -/
def Obligations.PrnRule : Prop :=
  Config.default.opcPrn = 0x47 ∧ ∀ s : State, s.Ready → s.FetchFaults s.cfg.opcPrn 1 ∧
    ∀ a, s.byteAt? 0 = some s.cfg.opcPrn → s.byteAt? 1 = some a →
      (8 ≤ a.toNat → step s = .next (s.badIndex s.cfg.opcPrn a)) ∧
      ∀ r, a = regByte r → ∃ t, step s = .next t ∧ t = { s with out := s.out ++ [s.x[r]], pc := s.pc + 2 } ∧
        outPulse s t = some s.x[r] ∧ t.printed = s.printed ++ [decimal s.x[r]]

/-- R97: MUL, faults and effect. -/
def Obligations.MulRule : Prop :=
  Config.default.opcMul = 0xA2 ∧ ∀ s : State, s.Ready → s.FetchFaults s.cfg.opcMul 2 ∧
    ∀ a b, s.byteAt? 0 = some s.cfg.opcMul → s.byteAt? 1 = some a → s.byteAt? 2 = some b →
      (8 ≤ a.toNat → step s = .next (s.badIndex s.cfg.opcMul a)) ∧
      (a.toNat < 8 → 8 ≤ b.toNat → step s = .next (s.badIndex s.cfg.opcMul b)) ∧
      ∀ ra rb, a = regByte ra → b = regByte rb →
        step s = .next { s with x := s.x.set ra (s.x[ra] * s.x[rb]), pc := s.pc + 3 } ∧
        (s.x[ra] * s.x[rb]).toNat = s.x[ra].toNat * s.x[rb].toNat % 256

/-- R98: CMP, faults and effect: all three flags written, exactly one of them 1, whatever they were. -/
def Obligations.CmpRule : Prop :=
  Config.default.opcCmp = 0xA7 ∧ ∀ s : State, s.Ready → s.FetchFaults s.cfg.opcCmp 2 ∧
    ∀ a b, s.byteAt? 0 = some s.cfg.opcCmp → s.byteAt? 1 = some a → s.byteAt? 2 = some b →
      (8 ≤ a.toNat → step s = .next (s.badIndex s.cfg.opcCmp a)) ∧
      (a.toNat < 8 → 8 ≤ b.toNat → step s = .next (s.badIndex s.cfg.opcCmp b)) ∧
      ∀ ra rb, a = regByte ra → b = regByte rb →
        (s.x[ra] = s.x[rb] → step s = .next { s with flags := ⟨true, false, false⟩, pc := s.pc + 3 }) ∧
        (s.x[ra].toNat < s.x[rb].toNat → step s = .next { s with flags := ⟨false, true, false⟩, pc := s.pc + 3 }) ∧
        (s.x[rb].toNat < s.x[ra].toNat → step s = .next { s with flags := ⟨false, false, true⟩, pc := s.pc + 3 })

/-- R105: JMP, faults and effect. -/
def Obligations.JmpRule : Prop :=
  Config.default.opcJmp = 0x54 ∧ ∀ s : State, s.Ready → s.FetchFaults s.cfg.opcJmp 1 ∧
    ∀ a, s.byteAt? 0 = some s.cfg.opcJmp → s.byteAt? 1 = some a →
      (8 ≤ a.toNat → step s = .next (s.badIndex s.cfg.opcJmp a)) ∧
      ∀ r, a = regByte r → step s = .next { s with pc := (s.x[r]).setWidth 9 }

/-- R106: JEQ, faults and effect; the operand is checked whether or not the jump is taken. -/
def Obligations.JeqRule : Prop :=
  Config.default.opcJeq = 0x55 ∧ ∀ s : State, s.Ready → s.FetchFaults s.cfg.opcJeq 1 ∧
    ∀ a, s.byteAt? 0 = some s.cfg.opcJeq → s.byteAt? 1 = some a →
      (8 ≤ a.toNat → step s = .next (s.badIndex s.cfg.opcJeq a)) ∧
      ∀ r, a = regByte r →
        (s.flags.E = true → step s = .next { s with pc := (s.x[r]).setWidth 9 }) ∧
        (s.flags.E = false → step s = .next { s with pc := s.pc + 2 })

/-- R107: JNE, faults and effect: from the same flag E it goes where JEQ does not. -/
def Obligations.JneRule : Prop :=
  Config.default.opcJne = 0x56 ∧ ∀ s : State, s.Ready → s.FetchFaults s.cfg.opcJne 1 ∧
    ∀ a, s.byteAt? 0 = some s.cfg.opcJne → s.byteAt? 1 = some a →
      (8 ≤ a.toNat → step s = .next (s.badIndex s.cfg.opcJne a)) ∧
      ∀ r, a = regByte r →
        (s.flags.E = false → step s = .next { s with pc := (s.x[r]).setWidth 9 }) ∧
        (s.flags.E = true → step s = .next { s with pc := s.pc + 2 })

/-- R115: HLT, fault and effect; `pc` keeps the address of the HLT, no byte after it is read, no step follows, and only
reset leaves HALTED. -/
def Obligations.HltRule : Prop :=
  Config.default.opcHlt = 0x01 ∧ ∀ s : State, s.Ready → s.FetchFaults s.cfg.opcHlt 0 ∧
    (s.byteAt? 0 = some s.cfg.opcHlt →
      step s = .next { s with runState := .halted } ∧ s.fetchAddrs = [s.pc.setWidth 8] ∧
      (∀ t, step { s with runState := .halted } ≠ .next t) ∧
      ({ s with runState := .halted } : State).applyReset.runState = .running)

/-! ### The instructions as `exec` runs them: results, the index check, frames -/

/-- LDI and PRN complete on every register, value and state (pseudocode of R90 and R91). -/
def Obligations.LoadAndPrintComplete : Prop :=
  ∀ (s : State) (r : RegIdx) (imm : Byte),
    exec (.ldi (regByte r) imm) s = .next { s with x := s.x.set r imm, pc := s.pc + 3 } ∧
    exec (.prn (regByte r)) s = .next { s with out := s.out ++ [s.x[r]], pc := s.pc + 2 }

/-- MUL and CMP complete on every pair of registers, the same register twice included (pseudocode of R97 and R98). -/
def Obligations.MultiplyAndCompareComplete : Prop :=
  ∀ (s : State) (ra rb : RegIdx),
    exec (.mul (regByte ra) (regByte rb)) s =
      .next { s with x := s.x.set ra (BitVec.ofNat 8 (s.x[ra].toNat * s.x[rb].toNat % 256)), pc := s.pc + 3 } ∧
    exec (.cmp (regByte ra) (regByte rb)) s =
      .next { s with
        flags := ⟨decide (s.x[ra] = s.x[rb]), decide (s.x[ra].toNat < s.x[rb].toNat),
          decide (s.x[rb].toNat < s.x[ra].toNat)⟩
        pc := s.pc + 3 }

/-- The jumps complete on every register and both values of E, and from one state exactly one of JEQ and JNE is taken
(pseudocode of R105, R106 and R107). -/
def Obligations.JumpsComplete : Prop :=
  ∀ (s : State) (r : RegIdx),
    exec (.jmp (regByte r)) s = .next { s with pc := (s.x[r]).setWidth 9 } ∧
    exec (.jeq (regByte r)) s = .next { s with pc := if s.flags.E then (s.x[r]).setWidth 9 else s.pc + 2 } ∧
    exec (.jne (regByte r)) s = .next { s with pc := if s.flags.E then s.pc + 2 else (s.x[r]).setWidth 9 }

/-- HLT completes in every state (pseudocode of R115). -/
def Obligations.HaltCompletes : Prop :=
  ∀ s : State, exec .hlt s = .next { s with runState := .halted }

/-- R74: every register operand of every instruction is checked, A before B, whether or not the register is used; LDI's
operand B is not checked. -/
def Obligations.RegisterIndexCheck : Prop :=
  ∀ (s : State) (a b : Byte),
    (8 ≤ a.toNat →
      exec (.ldi a b) s = .next (s.badIndex s.cfg.opcLdi a) ∧ exec (.prn a) s = .next (s.badIndex s.cfg.opcPrn a) ∧
      exec (.mul a b) s = .next (s.badIndex s.cfg.opcMul a) ∧ exec (.cmp a b) s = .next (s.badIndex s.cfg.opcCmp a) ∧
      exec (.jmp a) s = .next (s.badIndex s.cfg.opcJmp a) ∧ exec (.jeq a) s = .next (s.badIndex s.cfg.opcJeq a) ∧
      exec (.jne a) s = .next (s.badIndex s.cfg.opcJne a)) ∧
    (a.toNat < 8 → 8 ≤ b.toNat →
      exec (.mul a b) s = .next (s.badIndex s.cfg.opcMul b) ∧ exec (.cmp a b) s = .next (s.badIndex s.cfg.opcCmp b)) ∧
    (a.toNat < 8 → ∃ t, exec (.ldi a b) s = .next t ∧ t.runState = s.runState ∧ t.fault = s.fault)

/-- The frame of LDI and MUL: only the register operand A names may change, and nothing else but `pc`, unless the form
faults, and then only `run_state` and the record. -/
def Obligations.RegisterWritersFrame : Prop :=
  ∀ (s t : State) (i : Instr) (a b : Byte), i = .ldi a b ∨ i = .mul a b → exec i s = .next t →
    (∀ r : RegIdx, r.val ≠ a.toNat → t.readReg r = s.readReg r) ∧ t.flags = s.flags ∧ t.out = s.out ∧ t.cfg = s.cfg ∧
    (∀ addr, t.mem.read addr = s.mem.read addr) ∧
    (i.wellFormed = true → t.runState = s.runState ∧ t.fault = s.fault) ∧
    (i.wellFormed = false → t.pc = s.pc ∧ ∀ r, t.readReg r = s.readReg r)

/-- The frame of CMP: the flags and `pc` may change, and nothing else; a form that faults changes only `run_state` and the
record. -/
def Obligations.CompareFrame : Prop :=
  ∀ (s t : State) (a b : Byte), exec (.cmp a b) s = .next t →
    (∀ r, t.readReg r = s.readReg r) ∧ t.out = s.out ∧ t.cfg = s.cfg ∧
    (∀ addr, t.mem.read addr = s.mem.read addr) ∧
    ((Instr.cmp a b).wellFormed = true → t.runState = s.runState ∧ t.fault = s.fault) ∧
    ((Instr.cmp a b).wellFormed = false → t.pc = s.pc ∧ t.flags = s.flags)

/-- The frame of PRN: one value is appended to the output and `pc` may change, and nothing else; a form that faults emits
nothing. -/
def Obligations.PrintFrame : Prop :=
  ∀ (s t : State) (a : Byte), exec (.prn a) s = .next t →
    (∀ r, t.readReg r = s.readReg r) ∧ t.flags = s.flags ∧ t.cfg = s.cfg ∧
    (∀ addr, t.mem.read addr = s.mem.read addr) ∧ s.out <+: t.out ∧
    ((Instr.prn a).wellFormed = true → t.runState = s.runState ∧ t.fault = s.fault ∧ t.out.length = s.out.length + 1) ∧
    ((Instr.prn a).wellFormed = false → t.pc = s.pc ∧ t.out = s.out)

/-- The frame of JMP, JEQ and JNE: only `pc` may change; no flag is consumed or cleared, and no return address is kept. -/
def Obligations.JumpsFrame : Prop :=
  ∀ (s t : State) (i : Instr) (a : Byte), i = .jmp a ∨ i = .jeq a ∨ i = .jne a → exec i s = .next t →
    (∀ r, t.readReg r = s.readReg r) ∧ t.flags = s.flags ∧ t.out = s.out ∧ t.cfg = s.cfg ∧
    (∀ addr, t.mem.read addr = s.mem.read addr) ∧
    (i.wellFormed = true → t.runState = s.runState ∧ t.fault = s.fault) ∧ (i.wellFormed = false → t.pc = s.pc)

/-- The frame of HLT: only `run_state` changes. -/
def Obligations.HaltFrame : Prop :=
  ∀ s t : State, exec .hlt s = .next t →
    (∀ r, t.readReg r = s.readReg r) ∧ t.pc = s.pc ∧ t.flags = s.flags ∧ t.out = s.out ∧ t.cfg = s.cfg ∧
    t.fault = s.fault ∧ ∀ addr, t.mem.read addr = s.mem.read addr

/-! ### The ALU and the flags -/

/-- R96: the ALU's ADD, which no instruction selects. -/
def Obligations.AluAddRule : Prop :=
  ∀ (ir : Byte) (ra rb : RegIdx) (s : State),
    (∃ t, aluApply 0 ir ra rb s = .ok t ∧ t = s.writeReg ra (t.readReg ra) ∧ t.flags = s.flags ∧
      (t.readReg ra).toNat = ((s.readReg ra).toNat + (s.readReg rb).toNat) % 256) ∧
    ∀ c op, (controlOf c op).aluOp ≠ some 0

/-- R99: the flag logic on any operands: exactly one flag, by the unsigned comparison, written only with `flags_we`. -/
def Obligations.FlagLogicRule : Prop :=
  ∀ (a b : Byte) (old : Flags),
    ((flagLogic true (compareFlags a b) old).E = true ↔ a = b) ∧
    ((flagLogic true (compareFlags a b) old).L = true ↔ a.toNat < b.toNat) ∧
    ((flagLogic true (compareFlags a b) old).G = true ↔ b.toNat < a.toNat) ∧
    (flagLogic true (compareFlags a b) old).count = 1 ∧ flagLogic false (compareFlags a b) old = old

/-- R13: a step that changes a flag is the step of a CMP, and after the step of a CMP exactly one flag is set. -/
def Obligations.OnlyCompareWritesFlags : Prop :=
  ∀ s t : State, step s = .next t →
    (t.flags ≠ s.flags → s.byteAt? 0 = some s.cfg.opcCmp) ∧
    (s.byteAt? 0 = some s.cfg.opcCmp → t.runState ≠ .faulted → t.flags.count = 1)

/-- R13, R100: L and G are read by no instruction. Two runs that begin in states that differ at most in L and G stay
together for ever, and differ at most in L and G. -/
def Obligations.LessAndGreaterAreNeverRead : Prop :=
  ∀ (k : Nat) (s s' t : State), s.sameButLG s' → core.run k s = .next t →
    ∃ t', core.run k s' = .next t' ∧ State.sameButLG t t'

/-- The property the source states of CMP and JEQ (R106), over the two steps: the jump right after the comparison sees its
flag, and a register written or compared by one instruction is seen by the next (R150). -/
def Obligations.JumpRightAfterCompareSeesIt : Prop :=
  ∀ (s : State) (ra rb rt : RegIdx), s.Ready →
    s.byteAt? 0 = some s.cfg.opcCmp → s.byteAt? 1 = some (regByte ra) → s.byteAt? 2 = some (regByte rb) →
    s.byteAt? 3 = some s.cfg.opcJeq → s.byteAt? 4 = some (regByte rt) →
    ∃ t, core.run 2 s = .next t ∧
      (s.x[ra] = s.x[rb] → t.pc.toNat = s.x[rt].toNat) ∧ (s.x[ra] ≠ s.x[rb] → t.pc.toNat = s.pc.toNat + 5)

/-! ### Output, end of run, invariants -/

/-- R18: the output stream is empty at reset, a step appends at most the value of one register, and only PRN does; nothing
in the core reads it; and each value is rendered as its decimal digits without leading zeros. -/
def Obligations.OutputStreamRule : Prop :=
  State.reset.out = [] ∧
  (∀ s t : State, step s = .next t →
    (t.out = s.out ∧ outPulse s t = none) ∨
      ∃ r, s.byteAt? 0 = some s.cfg.opcPrn ∧ s.byteAt? 1 = some (regByte r) ∧ t.out = s.out ++ [s.x[r]] ∧
        outPulse s t = some s.x[r]) ∧
  (∀ (s t : State) (o : List Byte), step s = .next t →
    step { s with out := o } = .next { t with out := o ++ t.out.drop s.out.length }) ∧
  ∀ v : Byte, digitsValue (decimal v) = v.toNat ∧ (∀ d ∈ decimal v, d.isDigit = true) ∧
    ((decimal v).head? = some '0' → decimal v = ['0'])

/-- R146: a run has ended exactly in HALTED and FAULTED; it ends normally exactly with the step of an HLT, and abnormally
exactly with a step that takes a fault. -/
def Obligations.HaltsExactlyOnHlt : Prop :=
  ∀ s t : State, step s = .next t →
    (t.runState = .halted ↔ s.byteAt? 0 = some s.cfg.opcHlt) ∧
    (t.runState = .faulted ↔ ∃ r, t = s.takeFault r) ∧
    (t.ended = true ↔ t.runState = .halted ∨ t.runState = .faulted)

/-- R105, R110: a jump through a register that holds the jump's own address is an endless loop, in which the state never
changes. -/
def Obligations.JumpToItselfNeverEnds : Prop :=
  ∀ (s : State) (r : RegIdx), s.Ready → s.byteAt? 0 = some s.cfg.opcJmp → s.byteAt? 1 = some (regByte r) →
    s.x[r].toNat = s.pc.toNat → ∀ k, core.run k s = .next s

/-- The invariant holds after reset. -/
def Obligations.InvariantHoldsAtReset : Prop := State.reset.Inv ∧ State.reset.cfg.Legal

/-- Every step keeps the invariant: memory in its canonical form and inside MEM_CAP, the PC bound of R78, at most one flag
(R13), the fault record as R15 and R120 say, and `pc == fault_pc` when FAULTED (R127). -/
def Obligations.EveryStepKeepsTheInvariant : Prop := ∀ s t : State, s.Inv → step s = .next t → t.Inv

/-- Whatever the host does, in whatever order (resets, writes, launches, steps), from a machine just reset, the invariant
holds and the configuration stays what it was. -/
def Obligations.EveryReachableStateKeepsTheInvariant : Prop :=
  ∀ (cfg : Config) (es : List Event) (z : System), cfg.Legal → (System.start cfg).applyAll es = .next z →
    z.core.Inv ∧ z.core.cfg = cfg
end

