-- ==== Sys2Proof/Laws/Memory.lean ====
section
/-! SUPPORT. Every memory operation keeps the canonical form, and reading after writing. -/

namespace Sys2Proof.Machine

theorem Memory.wf_nil : Memory.wf ([] : Memory) := by simp [Memory.wf]

theorem Memory.wf_cons {k : Nat} {w : Byte} {m : Memory} :
    Memory.wf ((k, w) :: m) ↔ (∀ cell ∈ m, k < cell.1) ∧ w ≠ Memory.unlisted ∧ Memory.wf m := by
  simp only [Memory.wf, List.pairwise_cons, List.forall_mem_cons]
  tauto

/-- Every cell of a written memory is the written one or was there before. -/
theorem Memory.mem_write {m : Memory} {a : Nat} {v : Byte} {cell : Host.Cell} (h : cell ∈ m.write a v) :
    cell.1 = a ∨ cell ∈ m := by
  induction m with
  | nil =>
    simp only [Memory.write, Memory.put] at h
    split at h <;> simp_all
  | cons hd tl ih =>
    obtain ⟨k, w⟩ := hd
    simp only [Memory.write, Memory.put] at h
    split at h
    · split at h
      · exact .inr h
      · rcases List.mem_cons.1 h with rfl | h
        · exact .inl rfl
        · exact .inr h
    · split at h
      · split at h
        · exact .inr (List.mem_cons_of_mem _ h)
        · rcases List.mem_cons.1 h with rfl | h
          · exact .inl rfl
          · exact .inr (List.mem_cons_of_mem _ h)
      · rcases List.mem_cons.1 h with rfl | h
        · exact .inr List.mem_cons_self
        · exact (ih h).imp id (List.mem_cons_of_mem _)

/-- A write keeps the canonical form. -/
theorem Memory.write_wf {m : Memory} (a : Nat) (v : Byte) (h : m.wf) : (m.write a v).wf := by
  induction m with
  | nil =>
    simp only [Memory.write, Memory.put]
    split
    · exact h
    · exact Memory.wf_cons.2 ⟨by simp, ‹_›, Memory.wf_nil⟩
  | cons hd tl ih =>
    obtain ⟨k, w⟩ := hd
    obtain ⟨hk, hw, htl⟩ := Memory.wf_cons.1 h
    simp only [Memory.write, Memory.put]
    split
    · split
      · exact h
      · refine Memory.wf_cons.2 ⟨fun cell hc => ?_, ‹_›, h⟩
        rcases List.mem_cons.1 hc with rfl | hc
        · assumption
        · exact Nat.lt_trans ‹a < k› (hk cell hc)
    · split
      · subst a
        split
        · exact htl
        · exact Memory.wf_cons.2 ⟨hk, ‹_›, htl⟩
      · refine Memory.wf_cons.2 ⟨fun cell hc => ?_, hw, ih htl⟩
        rcases Memory.mem_write hc with e | hc
        · omega
        · exact hk cell hc

/-- An address below every listed one reads as an unlisted address. -/
theorem Memory.read_below {m : Memory} {a : Nat} (h : ∀ cell ∈ m, a < cell.1) : m.read a = Memory.unlisted := by
  induction m with
  | nil => rfl
  | cons hd tl ih =>
    obtain ⟨k, w⟩ := hd
    have hk : a < k := h (k, w) List.mem_cons_self
    simp only [Memory.read]
    rw [if_neg (by omega)]
    exact ih fun cell hc => h cell (List.mem_cons_of_mem _ hc)

/-- Reading the address just written. -/
theorem Memory.read_write_same {m : Memory} (a : Nat) (v : Byte) (h : m.wf) : (m.write a v).read a = v := by
  induction m with
  | nil =>
    simp only [Memory.write, Memory.put]
    split <;> simp_all [Memory.read]
  | cons hd tl ih =>
    obtain ⟨k, w⟩ := hd
    obtain ⟨hk, -, htl⟩ := Memory.wf_cons.1 h
    simp only [Memory.write, Memory.put]
    split
    · split
      · subst v
        exact Memory.read_below fun cell hc => by
          rcases List.mem_cons.1 hc with rfl | hc
          · assumption
          · exact Nat.lt_trans ‹a < k› (hk cell hc)
      · simp [Memory.read]
    · split
      · subst a
        split
        · subst v
          exact Memory.read_below hk
        · simp [Memory.read]
      · simp only [Memory.read]
        rw [if_neg (fun e => ‹¬a = k› e.symm)]
        exact ih htl

/-- Reading any other address. -/
theorem Memory.read_write_other {m : Memory} {a b : Nat} (v : Byte) (h : b ≠ a) :
    (m.write a v).read b = m.read b := by
  induction m with
  | nil =>
    simp only [Memory.write, Memory.put]
    split
    · rfl
    · simp [Memory.read, Ne.symm h]
  | cons hd tl ih =>
    obtain ⟨k, w⟩ := hd
    simp only [Memory.write, Memory.put]
    split
    · split
      · rfl
      · simp [Memory.read, Ne.symm h]
    · split
      · subst a
        split <;> simp [Memory.read, Ne.symm h]
      · simp [Memory.read, ih]

/-- A write below the capacity lists only cells below it. -/
theorem Memory.write_below {cap : Nat} {m : Memory} {a : Nat} (v : Byte) (h : m.below cap) (ha : a < cap) :
    (m.write a v).below cap := fun cell hc => by
  rcases Memory.mem_write hc with e | hc
  · omega
  · exact h cell hc

/-- Equal reads make equal memories: the form is canonical. -/
theorem Memory.ext_read {m n : Memory} (hm : m.wf) (hn : n.wf) (h : ∀ a, m.read a = n.read a) : m = n := by
  induction m generalizing n with
  | nil =>
    cases n with
    | nil => rfl
    | cons hd tl =>
      obtain ⟨k, w⟩ := hd
      have := h k
      simp only [Memory.read, if_true] at this
      exact absurd this.symm (Memory.wf_cons.1 hn).2.1
  | cons hd tl ih =>
    obtain ⟨k, w⟩ := hd
    obtain ⟨hk, hw, htl⟩ := Memory.wf_cons.1 hm
    cases n with
    | nil =>
      have := h k
      simp only [Memory.read, if_true] at this
      exact absurd this hw
    | cons hd' tl' =>
      obtain ⟨k', w'⟩ := hd'
      obtain ⟨hk', hw', htl'⟩ := Memory.wf_cons.1 hn
      have hkk : k = k' := by
        rcases Nat.lt_trichotomy k k' with hlt | rfl | hlt
        · have := h k
          rw [Memory.read_below (m := (k', w') :: tl') (a := k) (fun cell hc => by
            rcases List.mem_cons.1 hc with rfl | hc
            · assumption
            · exact Nat.lt_trans hlt (hk' cell hc))] at this
          simp only [Memory.read, if_true] at this
          exact absurd this hw
        · rfl
        · have := h k'
          rw [Memory.read_below (m := (k, w) :: tl) (a := k') (fun cell hc => by
            rcases List.mem_cons.1 hc with rfl | hc
            · assumption
            · exact Nat.lt_trans hlt (hk cell hc))] at this
          simp only [Memory.read, if_true] at this
          exact absurd this.symm hw'
      subst hkk
      have hww : w = w' := by simpa [Memory.read] using h k
      subst hww
      congr 1
      refine ih htl htl' fun a => ?_
      by_cases ha : k = a
      · subst ha
        rw [Memory.read_below hk, Memory.read_below hk']
      · simpa [Memory.read, ha] using h a

/-- The host's write keeps the canonical form and the bound. -/
theorem memWrite_keeps {cap : Nat} {m m' : Memory} {a v : Nat} (hm : m.wf) (hb : m.below cap)
    (h : memWrite cap m a v = some m') : m'.wf ∧ m'.below cap := by
  unfold memWrite at h
  split at h
  · cases h
    exact ⟨Memory.write_wf _ _ hm, Memory.write_below _ hb ‹_›⟩
  · cases h

/-- Loading an image keeps the canonical form and the bound. -/
theorem loadBytes_keeps {cap : Nat} {bs : List Byte} {a : Nat} {m m' : Memory} (hm : m.wf) (hb : m.below cap)
    (h : loadBytes cap a bs m = some m') : m'.wf ∧ m'.below cap := by
  induction bs generalizing a m with
  | nil => cases h; exact ⟨hm, hb⟩
  | cons b bs ih =>
    simp only [loadBytes] at h
    split at h
    · cases h
    · have hk := memWrite_keeps hm hb ‹_›
      exact ih hk.1 hk.2 h

/-- Placing a fetch word keeps the canonical form and the bound. -/
theorem storeBytes_keeps {cap : Nat} {bs : List Byte} {a : Nat} {m : Memory} (hm : m.wf) (hb : m.below cap) :
    (storeBytes cap a bs m).wf ∧ (storeBytes cap a bs m).below cap := by
  induction bs generalizing a m with
  | nil => exact ⟨hm, hb⟩
  | cons b bs ih =>
    simp only [storeBytes]
    split
    · exact ih (Memory.write_wf _ _ hm) (Memory.write_below _ hb ‹_›)
    · exact ih hm hb

/-- The reset memory is in canonical form. -/
theorem reset_mem_wf : State.reset.mem.wf := Memory.wf_nil

end Sys2Proof.Machine
end

