-- ==== Sys2Proof/Laws/State.lean ====
section
/-! SUPPORT. What each update of the state leaves in each field: one lemma per field per update, true by rfl. -/

namespace Sys2Proof.Machine

/-! ### writeReg -/

@[simp] theorem State.writeReg_cfg (s : State) (r : RegIdx) (v : Byte) :
    (s.writeReg r v).cfg = s.cfg := rfl
@[simp] theorem State.writeReg_x (s : State) (r : RegIdx) (v : Byte) :
    (s.writeReg r v).x = s.x.set r v := rfl
@[simp] theorem State.writeReg_pc (s : State) (r : RegIdx) (v : Byte) :
    (s.writeReg r v).pc = s.pc := rfl
@[simp] theorem State.writeReg_flags (s : State) (r : RegIdx) (v : Byte) :
    (s.writeReg r v).flags = s.flags := rfl
@[simp] theorem State.writeReg_mem (s : State) (r : RegIdx) (v : Byte) :
    (s.writeReg r v).mem = s.mem := rfl
@[simp] theorem State.writeReg_runState (s : State) (r : RegIdx) (v : Byte) :
    (s.writeReg r v).runState = s.runState := rfl
@[simp] theorem State.writeReg_fault (s : State) (r : RegIdx) (v : Byte) :
    (s.writeReg r v).fault = s.fault := rfl
@[simp] theorem State.writeReg_out (s : State) (r : RegIdx) (v : Byte) :
    (s.writeReg r v).out = s.out := rfl

/-! ### setPc -/

@[simp] theorem State.setPc_cfg (s : State) (t : PcWord) :
    (s.setPc t).cfg = s.cfg := rfl
@[simp] theorem State.setPc_x (s : State) (t : PcWord) :
    (s.setPc t).x = s.x := rfl
@[simp] theorem State.setPc_pc (s : State) (t : PcWord) :
    (s.setPc t).pc = t := rfl
@[simp] theorem State.setPc_flags (s : State) (t : PcWord) :
    (s.setPc t).flags = s.flags := rfl
@[simp] theorem State.setPc_mem (s : State) (t : PcWord) :
    (s.setPc t).mem = s.mem := rfl
@[simp] theorem State.setPc_runState (s : State) (t : PcWord) :
    (s.setPc t).runState = s.runState := rfl
@[simp] theorem State.setPc_fault (s : State) (t : PcWord) :
    (s.setPc t).fault = s.fault := rfl
@[simp] theorem State.setPc_out (s : State) (t : PcWord) :
    (s.setPc t).out = s.out := rfl

/-! ### advance -/

@[simp] theorem State.advance_cfg (s : State) (n : Nat) :
    (s.advance n).cfg = s.cfg := rfl
@[simp] theorem State.advance_x (s : State) (n : Nat) :
    (s.advance n).x = s.x := rfl
@[simp] theorem State.advance_pc (s : State) (n : Nat) :
    (s.advance n).pc = pcAdder s.pc n := rfl
@[simp] theorem State.advance_flags (s : State) (n : Nat) :
    (s.advance n).flags = s.flags := rfl
@[simp] theorem State.advance_mem (s : State) (n : Nat) :
    (s.advance n).mem = s.mem := rfl
@[simp] theorem State.advance_runState (s : State) (n : Nat) :
    (s.advance n).runState = s.runState := rfl
@[simp] theorem State.advance_fault (s : State) (n : Nat) :
    (s.advance n).fault = s.fault := rfl
@[simp] theorem State.advance_out (s : State) (n : Nat) :
    (s.advance n).out = s.out := rfl

/-! ### jumpTo -/

@[simp] theorem State.jumpTo_cfg (s : State) (r : RegIdx) :
    (s.jumpTo r).cfg = s.cfg := rfl
@[simp] theorem State.jumpTo_x (s : State) (r : RegIdx) :
    (s.jumpTo r).x = s.x := rfl
@[simp] theorem State.jumpTo_pc (s : State) (r : RegIdx) :
    (s.jumpTo r).pc = zext9 (s.readReg r) := rfl
@[simp] theorem State.jumpTo_flags (s : State) (r : RegIdx) :
    (s.jumpTo r).flags = s.flags := rfl
@[simp] theorem State.jumpTo_mem (s : State) (r : RegIdx) :
    (s.jumpTo r).mem = s.mem := rfl
@[simp] theorem State.jumpTo_runState (s : State) (r : RegIdx) :
    (s.jumpTo r).runState = s.runState := rfl
@[simp] theorem State.jumpTo_fault (s : State) (r : RegIdx) :
    (s.jumpTo r).fault = s.fault := rfl
@[simp] theorem State.jumpTo_out (s : State) (r : RegIdx) :
    (s.jumpTo r).out = s.out := rfl

/-! ### setFlags -/

@[simp] theorem State.setFlags_cfg (s : State) (f : Flags) :
    (s.setFlags f).cfg = s.cfg := rfl
@[simp] theorem State.setFlags_x (s : State) (f : Flags) :
    (s.setFlags f).x = s.x := rfl
@[simp] theorem State.setFlags_pc (s : State) (f : Flags) :
    (s.setFlags f).pc = s.pc := rfl
@[simp] theorem State.setFlags_flags (s : State) (f : Flags) :
    (s.setFlags f).flags = f := rfl
@[simp] theorem State.setFlags_mem (s : State) (f : Flags) :
    (s.setFlags f).mem = s.mem := rfl
@[simp] theorem State.setFlags_runState (s : State) (f : Flags) :
    (s.setFlags f).runState = s.runState := rfl
@[simp] theorem State.setFlags_fault (s : State) (f : Flags) :
    (s.setFlags f).fault = s.fault := rfl
@[simp] theorem State.setFlags_out (s : State) (f : Flags) :
    (s.setFlags f).out = s.out := rfl

/-! ### emit -/

@[simp] theorem State.emit_cfg (s : State) (v : Byte) :
    (s.emit v).cfg = s.cfg := rfl
@[simp] theorem State.emit_x (s : State) (v : Byte) :
    (s.emit v).x = s.x := rfl
@[simp] theorem State.emit_pc (s : State) (v : Byte) :
    (s.emit v).pc = s.pc := rfl
@[simp] theorem State.emit_flags (s : State) (v : Byte) :
    (s.emit v).flags = s.flags := rfl
@[simp] theorem State.emit_mem (s : State) (v : Byte) :
    (s.emit v).mem = s.mem := rfl
@[simp] theorem State.emit_runState (s : State) (v : Byte) :
    (s.emit v).runState = s.runState := rfl
@[simp] theorem State.emit_fault (s : State) (v : Byte) :
    (s.emit v).fault = s.fault := rfl
@[simp] theorem State.emit_out (s : State) (v : Byte) :
    (s.emit v).out = s.out ++ [v] := rfl

/-! ### halt -/

@[simp] theorem State.halt_cfg (s : State) :
    (s.halt).cfg = s.cfg := rfl
@[simp] theorem State.halt_x (s : State) :
    (s.halt).x = s.x := rfl
@[simp] theorem State.halt_pc (s : State) :
    (s.halt).pc = s.pc := rfl
@[simp] theorem State.halt_flags (s : State) :
    (s.halt).flags = s.flags := rfl
@[simp] theorem State.halt_mem (s : State) :
    (s.halt).mem = s.mem := rfl
@[simp] theorem State.halt_runState (s : State) :
    (s.halt).runState = .halted := rfl
@[simp] theorem State.halt_fault (s : State) :
    (s.halt).fault = s.fault := rfl
@[simp] theorem State.halt_out (s : State) :
    (s.halt).out = s.out := rfl

/-! ### takeFault -/

@[simp] theorem State.takeFault_cfg (s : State) (r : Raise) :
    (s.takeFault r).cfg = s.cfg := rfl
@[simp] theorem State.takeFault_x (s : State) (r : Raise) :
    (s.takeFault r).x = s.x := rfl
@[simp] theorem State.takeFault_pc (s : State) (r : Raise) :
    (s.takeFault r).pc = s.pc := rfl
@[simp] theorem State.takeFault_flags (s : State) (r : Raise) :
    (s.takeFault r).flags = s.flags := rfl
@[simp] theorem State.takeFault_mem (s : State) (r : Raise) :
    (s.takeFault r).mem = s.mem := rfl
@[simp] theorem State.takeFault_runState (s : State) (r : Raise) :
    (s.takeFault r).runState = .faulted := rfl
@[simp] theorem State.takeFault_fault (s : State) (r : Raise) :
    (s.takeFault r).fault = r.record s.pc := rfl
@[simp] theorem State.takeFault_out (s : State) (r : Raise) :
    (s.takeFault r).out = s.out := rfl

/-! ### applyReset -/

@[simp] theorem State.applyReset_cfg (s : State) :
    s.applyReset.cfg = s.cfg := rfl
@[simp] theorem State.applyReset_x (s : State) :
    s.applyReset.x = State.reset.x := rfl
@[simp] theorem State.applyReset_pc (s : State) :
    s.applyReset.pc = State.reset.pc := rfl
@[simp] theorem State.applyReset_flags (s : State) :
    s.applyReset.flags = State.reset.flags := rfl
@[simp] theorem State.applyReset_mem (s : State) :
    s.applyReset.mem = State.reset.mem := rfl
@[simp] theorem State.applyReset_runState (s : State) :
    s.applyReset.runState = State.reset.runState := rfl
@[simp] theorem State.applyReset_fault (s : State) :
    s.applyReset.fault = State.reset.fault := rfl
@[simp] theorem State.applyReset_out (s : State) :
    s.applyReset.out = State.reset.out := rfl

/-! ### Reading registers -/

@[simp] theorem State.readReg_writeReg_same (s : State) (r : RegIdx) (v : Byte) :
    (s.writeReg r v).readReg r = v := by
  simp [State.readReg, State.writeReg]

theorem State.readReg_writeReg_other (s : State) (r q : RegIdx) (v : Byte) (h : q ≠ r) :
    (s.writeReg r v).readReg q = s.readReg q := by
  have hne : r.val ≠ q.val := fun e => h (Fin.ext e.symm)
  simp [State.readReg, State.writeReg, hne]

/-- Two states with the same register file read alike. -/
theorem State.readReg_congr {s t : State} (h : t.x = s.x) (r : RegIdx) : t.readReg r = s.readReg r := by
  simp [State.readReg, h]

end Sys2Proof.Machine
end

