-- ==== Sys2Proof/Laws/Ops.lean ====
section
/-! SUPPORT. What each shared operation can answer: the register operand check, the memory read port, the opcode map and
the instruction fetch. -/

namespace Sys2Proof.Machine

/-! ### Register operands -/

theorem regIndex_eq_some {b : Byte} {r : RegIdx} : regIndex b = some r ↔ b.toNat = r.val := by
  unfold regIndex
  split
  · rw [Option.some.injEq, Fin.ext_iff]
  · have := r.isLt
    simp only [reduceCtorEq, false_iff]
    omega

theorem regIndex_eq_none {b : Byte} : regIndex b = none ↔ 8 ≤ b.toNat := by
  unfold regIndex
  split <;> simp <;> omega

@[simp] theorem regByte_toNat (r : RegIdx) : (regByte r).toNat = r.val := by
  have := r.isLt
  simp only [regByte, BitVec.toNat_ofNat]
  omega

@[simp] theorem regIndex_regByte (r : RegIdx) : regIndex (regByte r) = some r :=
  regIndex_eq_some.2 (regByte_toNat r)

/-- Every byte that names a register is the byte of that register. -/
theorem regIndex_some_regByte {b : Byte} {r : RegIdx} (h : regIndex b = some r) : b = regByte r :=
  BitVec.eq_of_toNat_eq (by rw [regByte_toNat]; exact regIndex_eq_some.1 h)

/-- Everything `withRegA` can answer. -/
theorem withRegA_cases {op : Opcode} {a : Byte} {s t : State} {k : RegIdx → State}
    (h : withRegA op a s k = .next t) :
    (∃ r, a = regByte r ∧ t = k r) ∨
      (8 ≤ a.toNat ∧ t = s.takeFault (.regIndex (s.cfg.byteOf op) a)) := by
  unfold withRegA at h
  split at h <;> cases h
  · exact .inl ⟨_, regIndex_some_regByte ‹_›, rfl⟩
  · exact .inr ⟨regIndex_eq_none.1 ‹_›, rfl⟩

/-- Everything `withRegAB` can answer. -/
theorem withRegAB_cases {op : Opcode} {a b : Byte} {s t : State} {k : RegIdx → RegIdx → State}
    (h : withRegAB op a b s k = .next t) :
    (∃ ra rb, a = regByte ra ∧ b = regByte rb ∧ t = k ra rb) ∨
      (8 ≤ a.toNat ∧ t = s.takeFault (.regIndex (s.cfg.byteOf op) a)) ∨
      (a.toNat < 8 ∧ 8 ≤ b.toNat ∧ t = s.takeFault (.regIndex (s.cfg.byteOf op) b)) := by
  unfold withRegAB at h
  split at h
  · cases h
    exact .inr (.inl ⟨regIndex_eq_none.1 ‹_›, rfl⟩)
  · rename_i ra hra
    have ha := regIndex_eq_some.1 hra
    rcases withRegA_cases h with ⟨rb, hb, ht⟩ | ⟨hb, ht⟩
    · exact .inl ⟨ra, rb, regIndex_some_regByte hra, hb, ht⟩
    · exact .inr (.inr ⟨by omega, hb, ht⟩)

@[simp] theorem withRegA_regByte (op : Opcode) (r : RegIdx) (s : State) (k : RegIdx → State) :
    withRegA op (regByte r) s k = .next (k r) := by simp [withRegA]

@[simp] theorem withRegAB_regByte (op : Opcode) (ra rb : RegIdx) (s : State) (k : RegIdx → RegIdx → State) :
    withRegAB op (regByte ra) (regByte rb) s k = .next (k ra rb) := by simp [withRegAB]

theorem withRegA_high {op : Opcode} {a : Byte} (s : State) (k : RegIdx → State) (h : 8 ≤ a.toNat) :
    withRegA op a s k = .next (s.takeFault (.regIndex (s.cfg.byteOf op) a)) := by
  simp [withRegA, regIndex_eq_none.2 h]

theorem withRegAB_highA {op : Opcode} {a b : Byte} (s : State) (k : RegIdx → RegIdx → State) (h : 8 ≤ a.toNat) :
    withRegAB op a b s k = .next (s.takeFault (.regIndex (s.cfg.byteOf op) a)) := by
  simp [withRegAB, regIndex_eq_none.2 h]

theorem withRegAB_highB {op : Opcode} {a b : Byte} (s : State) (k : RegIdx → RegIdx → State) (ha : a.toNat < 8)
    (hb : 8 ≤ b.toNat) :
    withRegAB op a b s k = .next (s.takeFault (.regIndex (s.cfg.byteOf op) b)) := by
  have : regIndex a = some ⟨a.toNat, ha⟩ := regIndex_eq_some.2 rfl
  simp [withRegAB, this, withRegA_high s _ hb]

/-! ### The opcode map -/

/-- In a legal configuration each opcode byte is recognized as its own opcode. -/
theorem recognise_byteOf {c : Config} (h : c.opcodes.Nodup) (op : Opcode) : recognise c (c.byteOf op) = some op := by
  simp only [Config.opcodes, List.nodup_cons, List.mem_cons, not_or] at h
  cases op <;> simp_all [recognise, Config.byteOf, eq_comm]

/-- A recognized byte is the byte of its opcode. -/
theorem byteOf_of_recognise {c : Config} {b : Byte} {op : Opcode} (h : recognise c b = some op) : c.byteOf op = b := by
  unfold recognise at h
  repeat' split at h
  all_goals first
    | (cases h; rename_i e; exact e.symm)
    | cases h

/-- A byte is not recognized exactly if it is none of the eight. -/
theorem recognise_eq_none {c : Config} {b : Byte} : recognise c b = none ↔ b ∉ c.opcodes := by
  simp only [Config.opcodes, List.mem_cons, List.not_mem_nil, or_false, not_or]
  unfold recognise
  repeat' split
  all_goals simp_all

/-! ### The read port and the fetch -/

theorem memRead_eq_some {cap : Nat} {m : Memory} {addr : PcWord} {b : Byte} :
    memRead cap m addr = some b ↔ addr.toNat < cap ∧ m.read addr.toNat = b := by
  unfold memRead
  split <;> simp_all

theorem memRead_eq_none {cap : Nat} {m : Memory} {addr : PcWord} : memRead cap m addr = none ↔ cap ≤ addr.toNat := by
  unfold memRead
  split <;> simp <;> omega

/-- The sums the fetch unit forms do not wrap where the opcode byte exists (20_memory.md R44). -/
theorem operandAddr_toNat {s : State} {k : Nat} (hl : s.cfg.Legal) (hpc : s.pc.toNat < s.cfg.memCap) (hk : k ≤ 2) :
    (s.operandAddr k).toNat = s.pc.toNat + k := by
  have := hl.2.1
  simp only [State.operandAddr, BitVec.toNat_add, BitVec.toNat_ofNat]
  omega

/-- The opcode fetch, in terms of the byte at `pc`. -/
theorem fetchOpcode_eq (s : State) :
    s.fetchOpcode = match s.byteAt? 0 with
      | some b => .ok b
      | none => .error (.opcodeFetch s.pc) := by
  unfold State.fetchOpcode memRead State.byteAt?
  by_cases h : s.pc.toNat < s.cfg.memCap <;> simp [h]

/-- The operand fetch, in terms of the byte `k` places on. -/
theorem fetchOperand_eq {s : State} {k : Nat} (hl : s.cfg.Legal) (hpc : s.pc.toNat < s.cfg.memCap) (hk : k ≤ 2)
    (ir : Byte) :
    s.fetchOperand ir k = match s.byteAt? k with
      | some b => .ok b
      | none => .error (.operandFetch ir (s.pc + BitVec.ofNat 9 k)) := by
  unfold State.fetchOperand memRead State.byteAt?
  rw [operandAddr_toNat hl hpc hk]
  by_cases h : s.pc.toNat + k < s.cfg.memCap <;> simp [h, State.operandAddr]

theorem byteAt?_zero_lt {s : State} {b : Byte} (h : s.byteAt? 0 = some b) : s.pc.toNat < s.cfg.memCap := by
  unfold State.byteAt? at h
  split at h
  · assumption
  · cases h

/-! ### The memory read port -/

theorem fetchAddrs_running {s : State} (h : s.runState = .running) :
    s.fetchAddrs = s.readAddrs.map fun addr => addr.setWidth 8 := by
  unfold State.fetchAddrs; rw [h]

/-- Every address that passes the bounds check exists. -/
theorem readAddrs_lt {s : State} {addr : PcWord} (h : addr ∈ s.readAddrs) : addr.toNat < s.cfg.memCap := by
  unfold State.readAddrs at h
  rw [fetchOpcode_eq] at h
  cases h0 : s.byteAt? 0 with
  | none => simp [h0] at h
  | some ir =>
    have := byteAt?_zero_lt h0
    simp only [h0] at h
    split at h
    · simp at h; subst h; exact this
    · rcases List.mem_cons.1 h with rfl | h
      · exact this
      · simp at h; exact h.2

/-- Such an address loses nothing on the 8-bit port. -/
theorem readAddrs_port {s : State} {addr : PcWord} (hl : s.cfg.Legal) (h : addr ∈ s.readAddrs) :
    ((addr.setWidth 8 : Byte)).toNat = addr.toNat := by
  have := readAddrs_lt h
  have := hl.2.1
  simp only [BitVec.toNat_setWidth]
  omega

end Sys2Proof.Machine
end

