-- ==== Sys2Proof/Laws/PerInstr.lean ====
section
/-! SUPPORT. Facts about every instruction as syntax, one lemma per constructor (the families named in LAWS.json). -/

/-- The encoding of an instruction has its opcode byte first and is as long as R50 says: operand count + 1. -/
def Sys2Proof.Laws.EncodingShape.Statement (i : Sys2Proof.Instr) : Prop :=
  ∀ c : Sys2Proof.Config,
    (Sys2Proof.encode c i).head? = some (c.byteOf i.opcode) ∧ (Sys2Proof.encode c i).length = i.length

theorem Sys2Proof.Laws.EncodingShape.ldi (a imm : Sys2Proof.Byte) :
    Sys2Proof.Laws.EncodingShape.Statement (.ldi a imm) := fun _ => ⟨rfl, rfl⟩
theorem Sys2Proof.Laws.EncodingShape.prn (a : Sys2Proof.Byte) :
    Sys2Proof.Laws.EncodingShape.Statement (.prn a) := fun _ => ⟨rfl, rfl⟩
theorem Sys2Proof.Laws.EncodingShape.mul (a b : Sys2Proof.Byte) :
    Sys2Proof.Laws.EncodingShape.Statement (.mul a b) := fun _ => ⟨rfl, rfl⟩
theorem Sys2Proof.Laws.EncodingShape.cmp (a b : Sys2Proof.Byte) :
    Sys2Proof.Laws.EncodingShape.Statement (.cmp a b) := fun _ => ⟨rfl, rfl⟩
theorem Sys2Proof.Laws.EncodingShape.jmp (a : Sys2Proof.Byte) :
    Sys2Proof.Laws.EncodingShape.Statement (.jmp a) := fun _ => ⟨rfl, rfl⟩
theorem Sys2Proof.Laws.EncodingShape.jeq (a : Sys2Proof.Byte) :
    Sys2Proof.Laws.EncodingShape.Statement (.jeq a) := fun _ => ⟨rfl, rfl⟩
theorem Sys2Proof.Laws.EncodingShape.jne (a : Sys2Proof.Byte) :
    Sys2Proof.Laws.EncodingShape.Statement (.jne a) := fun _ => ⟨rfl, rfl⟩
theorem Sys2Proof.Laws.EncodingShape.hlt :
    Sys2Proof.Laws.EncodingShape.Statement .hlt := fun _ => ⟨rfl, rfl⟩
end

