-- ==== Sys2Proof/Laws/Step.lean ====
section
/-! SUPPORT. What one step can do, said once: everything else about a step cites these. -/

namespace Sys2Proof.Machine

/-- What one instruction of the eight does to the state, with its checks passed. -/
inductive Effect (s : State) : Instr → State → Prop where
  | ldi (r : RegIdx) (imm : Byte) : Effect s (.ldi (regByte r) imm) ((s.writeReg r imm).advance 2)
  | prn (r : RegIdx) : Effect s (.prn (regByte r)) ((s.emit (s.readReg r)).advance 1)
  | mul (ra rb : RegIdx) : Effect s (.mul (regByte ra) (regByte rb))
      ((s.writeReg ra (aluMul (s.readReg ra) (s.readReg rb))).advance 2)
  | cmp (ra rb : RegIdx) : Effect s (.cmp (regByte ra) (regByte rb))
      ((s.setFlags (compareFlags (s.readReg ra) (s.readReg rb))).advance 2)
  | jmp (r : RegIdx) : Effect s (.jmp (regByte r)) (s.jumpTo r)
  | jeq (r : RegIdx) : Effect s (.jeq (regByte r)) (s.jumpIf s.flags.E r)
  | jne (r : RegIdx) : Effect s (.jne (regByte r)) (s.jumpIf (!s.flags.E) r)
  | hlt : Effect s .hlt s.halt

/-- The operand byte the register index check stops on, operand A before operand B (R74), if it stops. -/
def badOperand : Instr → Option Byte
  | .ldi a _ | .prn a | .jmp a | .jeq a | .jne a => if 8 ≤ a.toNat then some a else none
  | .mul a b | .cmp a b => if 8 ≤ a.toNat then some a else if 8 ≤ b.toNat then some b else none
  | .hlt => none

/-- Everything an instruction can answer: its effect, or the fault of the first register operand that names no register. -/
theorem exec_cases {i : Instr} {s t : State} (h : exec i s = .next t) :
    Effect s i t ∨
      ∃ operand, 8 ≤ operand.toNat ∧ i.wellFormed = false ∧ badOperand i = some operand ∧
        t = s.takeFault (.regIndex (s.cfg.byteOf i.opcode) operand) := by
  cases i with
  | ldi a imm =>
    rcases withRegA_cases h with ⟨r, rfl, rfl⟩ | ⟨ha, rfl⟩
    · exact .inl (.ldi r imm)
    · exact .inr ⟨a, ha, by simp [Instr.wellFormed]; omega, if_pos ha, rfl⟩
  | prn a =>
    rcases withRegA_cases h with ⟨r, rfl, rfl⟩ | ⟨ha, rfl⟩
    · exact .inl (.prn r)
    · exact .inr ⟨a, ha, by simp [Instr.wellFormed]; omega, if_pos ha, rfl⟩
  | mul a b =>
    rcases withRegAB_cases h with ⟨ra, rb, rfl, rfl, rfl⟩ | ⟨ha, rfl⟩ | ⟨ha, hb, rfl⟩
    · exact .inl (.mul ra rb)
    · exact .inr ⟨a, ha, by simp [Instr.wellFormed]; omega, if_pos ha, rfl⟩
    · exact .inr ⟨b, hb, by simp [Instr.wellFormed]; omega, by simp [badOperand, hb]; omega, rfl⟩
  | cmp a b =>
    rcases withRegAB_cases h with ⟨ra, rb, rfl, rfl, rfl⟩ | ⟨ha, rfl⟩ | ⟨ha, hb, rfl⟩
    · exact .inl (.cmp ra rb)
    · exact .inr ⟨a, ha, by simp [Instr.wellFormed]; omega, if_pos ha, rfl⟩
    · exact .inr ⟨b, hb, by simp [Instr.wellFormed]; omega, by simp [badOperand, hb]; omega, rfl⟩
  | jmp a =>
    rcases withRegA_cases h with ⟨r, rfl, rfl⟩ | ⟨ha, rfl⟩
    · exact .inl (.jmp r)
    · exact .inr ⟨a, ha, by simp [Instr.wellFormed]; omega, if_pos ha, rfl⟩
  | jeq a =>
    rcases withRegA_cases h with ⟨r, rfl, rfl⟩ | ⟨ha, rfl⟩
    · exact .inl (.jeq r)
    · exact .inr ⟨a, ha, by simp [Instr.wellFormed]; omega, if_pos ha, rfl⟩
  | jne a =>
    rcases withRegA_cases h with ⟨r, rfl, rfl⟩ | ⟨ha, rfl⟩
    · exact .inl (.jne r)
    · exact .inr ⟨a, ha, by simp [Instr.wellFormed]; omega, if_pos ha, rfl⟩
  | hlt =>
    cases h
    exact .inl .hlt

/-- An instruction never stops the machine: it always answers a next state. -/
theorem exec_next (i : Instr) (s : State) : ∃ t, exec i s = .next t := by
  have hA (op : Opcode) (a : Byte) (k : RegIdx → State) : ∃ t, withRegA op a s k = .next t := by
    unfold withRegA
    split <;> exact ⟨_, rfl⟩
  have hAB (op : Opcode) (a b : Byte) (k : RegIdx → RegIdx → State) : ∃ t, withRegAB op a b s k = .next t := by
    unfold withRegAB
    split
    · exact ⟨_, rfl⟩
    · exact hA _ _ _
  cases i with
  | ldi a imm => exact hA _ _ _
  | prn a => exact hA _ _ _
  | mul a b => exact hAB _ _ _ _
  | cmp a b => exact hAB _ _ _ _
  | jmp a => exact hA _ _ _
  | jeq a => exact hA _ _ _
  | jne a => exact hA _ _ _
  | hlt => exact ⟨_, rfl⟩

/-- Where the fetch unit raises a fault instead of delivering an instruction (R71 to R73). -/
inductive FetchFault (s : State) : Raise → Prop where
  | opcodeFetch (h : s.byteAt? 0 = none) : FetchFault s (.opcodeFetch s.pc)
  | unsupportedOpcode (ir : Byte) (h : s.byteAt? 0 = some ir) (hn : ir ∉ s.cfg.opcodes) :
      FetchFault s (.unsupportedOpcode ir)
  | operandA (op : Opcode) (h : s.byteAt? 0 = some (s.cfg.byteOf op)) (hn : 1 ≤ op.nOps) (h1 : s.byteAt? 1 = none) :
      FetchFault s (.operandFetch (s.cfg.byteOf op) (s.pc + 1))
  | operandB (op : Opcode) (a : Byte) (h : s.byteAt? 0 = some (s.cfg.byteOf op)) (hn : op.nOps = 2)
      (h1 : s.byteAt? 1 = some a) (h2 : s.byteAt? 2 = none) :
      FetchFault s (.operandFetch (s.cfg.byteOf op) (s.pc + 2))

/-- The bytes from `pc` on are those of the instruction. -/
def State.Holds (s : State) (op : Opcode) (a b : Byte) : Prop :=
  s.byteAt? 0 = some (s.cfg.byteOf op) ∧ (1 ≤ op.nOps → s.byteAt? 1 = some a) ∧ (op.nOps = 2 → s.byteAt? 2 = some b)

/-- Everything the fetch unit can answer. -/
theorem fetchInstr_cases {s : State} (hl : s.cfg.Legal) :
    (∃ r, s.fetchInstr = .error r ∧ FetchFault s r) ∨
      ∃ op a b, s.fetchInstr = .ok (assemble op a b) ∧ s.Holds op a b := by
  unfold State.fetchInstr
  rw [fetchOpcode_eq]
  rcases h0 : s.byteAt? 0 with _ | ir
  · exact .inl ⟨_, rfl, .opcodeFetch h0⟩
  · have hpc := byteAt?_zero_lt h0
    rcases hr : recognise s.cfg ir with _ | op
    · simp only [hr]
      exact .inl ⟨_, rfl, .unsupportedOpcode ir h0 (recognise_eq_none.1 hr)⟩
    · obtain rfl := byteOf_of_recognise hr
      simp only [hr]
      unfold State.fetchOperands
      rw [fetchOperand_eq hl hpc (by decide), fetchOperand_eq hl hpc (by decide)]
      by_cases hz : op.nOps = 0
      · rw [if_pos hz]
        exact .inr ⟨op, 0, 0, rfl, h0, by omega, by omega⟩
      · rw [if_neg hz]
        rcases h1 : s.byteAt? 1 with _ | a
        · exact .inl ⟨_, rfl, .operandA op h0 (by omega) h1⟩
        · dsimp only
          by_cases ho : op.nOps = 1
          · rw [if_pos ho]
            exact .inr ⟨op, a, 0, rfl, h0, fun _ => h1, by omega⟩
          · rw [if_neg ho]
            have h2n : op.nOps = 2 := by cases op <;> simp_all [Opcode.nOps, Opcode.format, Format.nOps]
            rcases h2 : s.byteAt? 2 with _ | b
            · exact .inl ⟨_, rfl, .operandB op a h0 h2n h1 h2⟩
            · exact .inr ⟨op, a, b, rfl, h0, fun _ => h1, fun _ => h2⟩

/-- Everything a step that answers a next state can do. -/
theorem step_cases {s t : State} (h : step s = .next t) :
    s.Ready ∧
      ((∃ r, FetchFault s r ∧ t = s.takeFault r) ∨
        ∃ op a b, s.Holds op a b ∧ exec (assemble op a b) s = .next t) := by
  unfold step at h
  split at h
  · rename_i hl
    split at h
    · cases h
    · cases h
    · rename_i hr
      refine ⟨⟨hl, hr⟩, ?_⟩
      rcases fetchInstr_cases hl with ⟨r, hf, hF⟩ | ⟨op, a, b, hf, hH⟩
      · rw [hf] at h
        cases h
        exact .inl ⟨r, hF, rfl⟩
      · rw [hf] at h
        exact .inr ⟨op, a, b, hH, h⟩
  · cases h

/-- A step that is possible, without the two tests that make it so. -/
theorem step_of_ready {s : State} (hs : s.Ready) :
    step s = match s.fetchInstr with
      | .error r => .next (s.takeFault r)
      | .ok i => exec i s := by
  unfold step
  simp only [if_pos hs.1, hs.2] <;> cases s.fetchInstr <;> rfl

/-- The step of a state that holds an instruction is that instruction's meaning. -/
theorem step_of_holds {s : State} {op : Opcode} {a b : Byte} (hs : s.Ready) (h : s.Holds op a b) :
    step s = exec (assemble op a b) s := by
  have hpc := byteAt?_zero_lt h.1
  have hf : s.fetchInstr = .ok (assemble op a b) := by
    unfold State.fetchInstr
    rw [fetchOpcode_eq, h.1]
    simp only [recognise_byteOf hs.1.2.2]
    unfold State.fetchOperands
    rw [fetchOperand_eq hs.1 hpc (by decide), fetchOperand_eq hs.1 hpc (by decide)]
    cases op <;> simp_all [State.Holds, Opcode.nOps, Opcode.format, Format.nOps, assemble]
  rw [step_of_ready hs, hf]

/-- The step of a state where the fetch faults takes that fault. -/
theorem step_of_fetchFault {s : State} {r : Raise} (hs : s.Ready) (h : FetchFault s r) :
    step s = .next (s.takeFault r) := by
  have hf : s.fetchInstr = .error r := by
    unfold State.fetchInstr
    cases h with
    | opcodeFetch h => rw [fetchOpcode_eq, h]
    | unsupportedOpcode ir h hn =>
      rw [fetchOpcode_eq, h]
      simp only [recognise_eq_none.2 hn]
    | operandA op h hn h1 =>
      rw [fetchOpcode_eq, h]
      simp only [recognise_byteOf hs.1.2.2]
      unfold State.fetchOperands
      rw [fetchOperand_eq hs.1 (byteAt?_zero_lt h) (by decide), h1, if_neg (by omega)]
      rfl
    | operandB op a h hn h1 h2 =>
      rw [fetchOpcode_eq, h]
      simp only [recognise_byteOf hs.1.2.2]
      unfold State.fetchOperands
      rw [fetchOperand_eq hs.1 (byteAt?_zero_lt h) (by decide), fetchOperand_eq hs.1 (byteAt?_zero_lt h) (by decide), h1, h2,
        if_neg (by omega)]
      dsimp only
      rw [if_neg (by omega)]
      rfl
  rw [step_of_ready hs, hf]

end Sys2Proof.Machine
end

