-- ==== Sys2Proof/Tests/Slice0.lean ====
section
/-! SUPPORT. Tests. Expected results are the vectors of spec/95_test_vectors.md (named V-... and F...), its Part 1
properties, or hand calculation from the rules. The theorems named witness_... show, for each statement with hypotheses, states
and operands that meet them, clause by clause, at the boundaries of their ranges. -/

namespace Sys2Proof.Tests

open Sys2Proof Sys2Proof.Machine

/-! ### Helpers -/

/-- A state with `bytes` at `pc` and `cap` memory cells, the rest as after reset. -/
def at? (cap pc : Nat) (bytes : List Byte) : State :=
  { State.reset with
    cfg := { Config.default with memCap := cap }
    pc := BitVec.ofNat 9 pc
    mem := storeBytes cap pc bytes [] }

/-- The same with the default 255 cells. -/
def at' (pc : Nat) (bytes : List Byte) : State := at? 255 pc bytes

/-- Give registers their values. -/
def withRegs (s : State) (vs : List (RegIdx × Byte)) : State := vs.foldl (fun t p => t.writeReg p.1 p.2) s

/-- The next state, if the step answers one. -/
def after? (s : State) : Option State :=
  match step s with
  | .next t => some t
  | _ => none

/-- What can be compared of a decoding. -/
def decoded? (c : Config) (bytes : List Byte) : Option (Instr × List Byte) :=
  match decode c bytes with
  | .ok r => some r
  | .error _ => none

/-- The reason a decoding fails. -/
def decodeError? (c : Config) (bytes : List Byte) : Option DecodeError :=
  match decode c bytes with
  | .ok _ => none
  | .error e => some e

/-- The fault record of the next state, if it is FAULTED. -/
def faultAfter? (s : State) : Option FaultRecord :=
  (after? s).bind fun t => if t.runState = .faulted then some t.fault else none

/-! ### WellFormed: an ill-formed term for each check -/

theorem test_wf_ldi_regA : (Instr.ldi 8 0).wellFormed = false := by decide
theorem test_wf_prn_regA : (Instr.prn 255).wellFormed = false := by decide
theorem test_wf_mul_regA : (Instr.mul 8 0).wellFormed = false := by decide
theorem test_wf_mul_regB : (Instr.mul 0 8).wellFormed = false := by decide
theorem test_wf_cmp_regA : (Instr.cmp 8 0).wellFormed = false := by decide
theorem test_wf_cmp_regB : (Instr.cmp 7 9).wellFormed = false := by decide
theorem test_wf_jmp_regA : (Instr.jmp 8).wellFormed = false := by decide
theorem test_wf_jeq_regA : (Instr.jeq 200).wellFormed = false := by decide
theorem test_wf_jne_regA : (Instr.jne 200).wellFormed = false := by decide
theorem test_wf_boundary : (Instr.ldi 7 255).wellFormed = true ∧ Instr.hlt.wellFormed = true := by decide

/-! ### Decode: words written bit by bit from R55's binary column (operands most significant bit first) -/

theorem test_decode_ldi : decoded? Config.default [0b10000010, 0b00000111, 0b11111111] = some (.ldi 7 255, []) := by
  decide
theorem test_decode_prn : decoded? Config.default [0b01000111, 0b00000101, 0b00000001] = some (.prn 5, [1]) := by decide
theorem test_decode_mul : decoded? Config.default [0b10100010, 0b00000010, 0b00000011] = some (.mul 2 3, []) := by decide
theorem test_decode_cmp : decoded? Config.default [0b10100111, 0b00000001, 0b00000110] = some (.cmp 1 6, []) := by decide
theorem test_decode_jmp : decoded? Config.default [0b01010100, 0b00000011] = some (.jmp 3, []) := by decide
theorem test_decode_jeq : decoded? Config.default [0b01010101, 0b00000010] = some (.jeq 2, []) := by decide
theorem test_decode_jne : decoded? Config.default [0b01010110, 0b00000100] = some (.jne 4, []) := by decide
theorem test_decode_hlt : decoded? Config.default [0b00000001, 0b11111111] = some (.hlt, [255]) := by decide
/-- Each rejection, by name. -/
theorem test_decode_rejects :
    decodeError? Config.default [] = some .noOpcode ∧ decodeError? Config.default [0] = some (.unsupportedOpcode 0) ∧
    decodeError? Config.default [0x82] = some (.missingOperandA 0x82) ∧
    decodeError? Config.default [0xA2, 9] = some (.missingOperandB 0xA2) := by decide
theorem test_encode_mul : encode Config.default (.mul 0 1) = [0xA2, 0x00, 0x01] := by decide
/-- The source's own text (R60, S1). -/
theorem test_assembly : (Instr.mul 0 1).assembly = ['M', 'U', 'L', ' ', 'R', '0', ',', 'R', '1'] ∧
    (Instr.ldi 0 8).assembly = ['L', 'D', 'I', ' ', 'R', '0', ',', '8'] := by decide

/-! ### The step: vectors of Part 2 -/

/-- V-LDI-2. -/
theorem test_ldi : (after? (withRegs (at' 10 [0x82, 0x07, 0xFF]) [(7, 1)])).map (fun t => (t.readReg 7, t.pc))
    = some (255, 13) := by decide
/-- V-LDI-11: the PC reaches 256 and does not wrap. -/
theorem test_ldi_top : (after? (at? 256 253 [0x82, 0x01, 0x07])).map (fun t => (t.readReg 1, t.pc.toNat))
    = some (7, 256) := by decide
/-- V-PRN-2. -/
theorem test_prn : (after? { at' 0 [0x47, 0x05] with out := [3] }).map (fun t => (t.out, t.pc)) = some ([3, 0], 2) := by
  decide
/-- V-MUL-4. -/
theorem test_mul_wraps : (after? (withRegs (at' 0 [0xA2, 0x00, 0x01]) [(0, 200), (1, 2)])).map
    (fun t => (t.readReg 0, t.readReg 1, t.pc)) = some (144, 2, 3) := by decide
/-- V-MUL-5: one register as both operands. -/
theorem test_mul_square : (after? (withRegs (at' 0 [0xA2, 0x04, 0x04]) [(4, 12)])).map (fun t => t.readReg 4)
    = some 144 := by decide
/-- V-CMP-5: the stale E is cleared. -/
theorem test_cmp_clears : (after? (withRegs { at' 0 [0xA7, 0x00, 0x01] with flags := ⟨true, false, false⟩ }
    [(0, 3), (1, 9)])).map (fun t => (t.flags, t.pc)) = some (⟨false, true, false⟩, 3) := by decide
/-- V-CMP-6: unsigned (D4). -/
theorem test_cmp_unsigned : (after? (withRegs (at' 0 [0xA7, 0x00, 0x01]) [(0, 128), (1, 127)])).map (fun t => t.flags)
    = some ⟨false, false, true⟩ := by decide
/-- V-JMP-4: the jump past the end completes. -/
theorem test_jmp : (after? (withRegs (at' 3 [0x54, 0x00]) [(0, 255)])).map (fun t => t.pc) = some 255 := by decide
/-- V-JEQ-1. -/
theorem test_jeq_taken : (after? (withRegs { at' 12 [0x55, 0x02] with flags := ⟨true, false, false⟩ } [(2, 17)])).map
    (fun t => t.pc) = some 17 := by decide
/-- V-JEQ-2. -/
theorem test_jeq_not_taken : (after? (withRegs { at' 12 [0x55, 0x02] with flags := ⟨false, true, false⟩ } [(2, 17)])).map
    (fun t => t.pc) = some 14 := by decide
/-- V-JNE-4: taken before any CMP. -/
theorem test_jne_taken : (after? (withRegs (at' 12 [0x56, 0x02]) [(2, 17)])).map (fun t => t.pc) = some 17 := by decide
/-- V-JNE-3. -/
theorem test_jne_not_taken : (after? (withRegs { at' 12 [0x56, 0x02] with flags := ⟨true, false, false⟩ } [(2, 17)])).map
    (fun t => t.pc) = some 14 := by decide
/-- V-HLT-3: in the last cell, with no operand read. -/
theorem test_hlt : (after? (at' 254 [0x01])).map (fun t => (t.runState, t.pc)) = some (.halted, 254) := by decide
/-- V-HLT-2: no step from HALTED. -/
theorem test_hlt_no_step : after? { at' 11 [0x01] with runState := .halted } = none := by decide

/-! ### Faults: vectors of Part 2 -/

/-- V-LDI-7. -/
theorem test_fault_regIndex : faultAfter? (at' 6 [0x82, 0xFF, 0x05]) = some ⟨.outOfRangeAccess, .regIndex, 6, 0x82, 255⟩ := by
  decide
/-- V-MUL-11: operand B's address before operand A's index. -/
theorem test_fault_order : faultAfter? (at' 253 [0xA2, 0x09]) = some ⟨.outOfRangeAccess, .operandFetch, 253, 0xA2, 255⟩ := by
  decide
/-- V-LDI-10. -/
theorem test_fault_operandA : faultAfter? (at' 254 [0x82]) = some ⟨.outOfRangeAccess, .operandFetch, 254, 0x82, 255⟩ := by
  decide
/-- V-JNE-5: checked although not taken. -/
theorem test_fault_not_taken : faultAfter? { at' 9 [0x56, 0xC8] with flags := ⟨true, false, false⟩ }
    = some ⟨.outOfRangeAccess, .regIndex, 9, 0x56, 200⟩ := by decide
/-- V-FLT-4. -/
theorem test_fault_opcodeFetch : faultAfter? (at' 255 []) = some ⟨.outOfRangeAccess, .opcodeFetch, 255, 0, 255⟩ := by decide
/-- V-FLT-5: decode comes before operand fetch. -/
theorem test_fault_unsupported : faultAfter? (at' 254 [0xA0]) = some ⟨.unsupportedOpcode, .none, 254, 0xA0, 160⟩ := by
  decide

/-! ### The sub-blocks: vectors of Part 3 -/

/-- The ALU's ADD and its unassigned select (2.3). -/
theorem test_alu_block : aluBlock 0 255 1 = some (.result 0) ∧ aluBlock 0 200 100 = some (.result 44) ∧
    aluBlock 3 1 1 = none := by decide
/-- V-FLG-1, V-FLG-4. -/
theorem test_flag_logic : flagLogic true (compareFlags 5 5) ⟨false, false, true⟩ = ⟨true, false, false⟩ ∧
    flagLogic false (compareFlags 6 5) ⟨false, true, false⟩ = ⟨false, true, false⟩ := by decide
/-- V-PCA-6, V-PCA-7. -/
theorem test_pc_adder : (pcAdder 253 2).toNat = 256 ∧ (pcAdder 255 2).toNat = 258 := by decide
/-- The read port at its boundaries. -/
theorem test_mem_read : memRead 255 [(254, 7)] 254 = some 7 ∧ memRead 255 [(254, 7)] 255 = none ∧
    memRead 255 [(1, 7)] 257 = none := by decide
/-- What the fetch word leaves where step fetches next: its first instruction is that one. -/
theorem test_withFetchWord : (after? (State.reset.withFetchWord 24 0x080082)).map (fun t => (t.readReg 0, t.pc))
    = some (8, 3) := by decide

/-! ### Witnesses -/

theorem witness_DecodeEncodeRoundTrip : Config.default.Legal := by decide

theorem witness_DecodedBytesAreTheEncoding : decode Config.default [0x82, 9, 8, 1] = .ok (.ldi 9 8, [1]) := rfl

theorem witness_OtherBytesAreUnsupported : (0 : Byte) ∉ Config.default.opcodes ∧ (0x82 : Byte) ∈ Config.default.opcodes := by
  decide

theorem witness_DecoderOutputsAreTheTable : Config.default.Legal ∧ (0xFF : Byte) ∉ Config.default.opcodes := by decide

theorem witness_IllegalConfigurationIsRefused :
    ¬ (at? 0 0 []).cfg.Legal ∧ ¬ (at? 257 0 []).cfg.Legal ∧
    ¬ ({ State.reset with cfg := { Config.default with opcPrn := 0x82 } } : State).cfg.Legal := by decide

theorem witness_LaunchStatesMeetThePremises : Config.default.Legal ∧
    (List.replicate 255 (1 : Byte)).length ≤ Config.default.memCap ∧
    Config.default.memCap < (List.replicate 256 (1 : Byte)).length ∧ (0 : Byte) ∉ Config.default.opcodes :=
  ⟨by decide, by rw [List.length_replicate]; decide, by rw [List.length_replicate]; decide, by decide⟩

theorem witness_LoadingThenLaunchReachesTheLaunchState : Config.default.Legal ∧
    (launchState Config.default [0x82, 0, 8]).isSome = true := by decide

/-- The last five lines of the program file of S1 (95_test_vectors.md part 1), with a blank line. -/
theorem test_program_text :
    parseProgram ["01000111 # PRN R0".toList, "00000000".toList, "  ".toList, "00000001 # HLT".toList,
      "# a comment".toList, "10000010".toList] = some [0x47, 0x00, 0x01, 0x82] := by decide

/-- A bare comment sign is an empty comment; a literal may stand before it. -/
theorem test_empty_comment : parseProgram ["#".toList, " 00001000\t#".toList] = some [8] := by decide

/-- Malformed literals give no image (93_implementation_defined.md U1). -/
theorem test_malformed_text :
    parseProgram ["0100 0111".toList] = none ∧ parseProgram ["1000001".toList] = none ∧
    parseProgram ["10000012".toList] = none := by decide

/-- A literal of seven digits, and one with another character, between blanks and an empty comment. -/
theorem witness_ProgramTextRule :
    Blank [' '] ∧ Blank ['\t'] ∧ "1000001".toList ≠ [] ∧ '#' ∉ "1000001".toList ∧
    (∀ d, "1000001".toList.head? = some d → d.isWhitespace = false) ∧
    (∀ d, "1000001".toList.getLast? = some d → d.isWhitespace = false) ∧
    ¬ ("1000001".toList.length = 8 ∧ ∀ d ∈ "1000001".toList, d = '0' ∨ d = '1') ∧
    ¬ ("10000012".toList.length = 8 ∧ ∀ d ∈ "10000012".toList, d = '0' ∨ d = '1') ∧
    textLine [' '] "1000001".toList ['\t'] (some []) ∈ [" 1000001\t#".toList] := by
  refine ⟨by simp [Blank], by simp [Blank], ?_⟩
  simp [textLine]

theorem witness_LoaderWritesCommute : Memory.wf ([(3, 1)] : Memory) ∧ (0 : Nat) ≠ 254 := by decide

theorem witness_MemoryIsConstantFromLaunchToReset :
    (⟨.launched, at' 0 [0x01]⟩ : System).phase = .launched ∧ Event.reset ∉ [Event.step] ∧
    ∃ z, (⟨.launched, at' 0 [0x01]⟩ : System).applyAll [.step] = .next z := ⟨rfl, by decide, _, rfl⟩

theorem witness_HostViewOfTheState : State.reset.runState = .running ∧ State.reset.halt.runState = .halted ∧
    (State.reset.takeFault (.opcodeFetch 255)).runState = .faulted := ⟨rfl, rfl, rfl⟩

theorem witness_ReadsAreBoundsChecked : Memory.wf ([(254, 7)] : Memory) ∧ 255 ≤ (255 : PcWord).toNat ∧
    (254 : PcWord).toNat < 255 ∧ ((254 : PcWord).toNat, (7 : Byte)) ∈ ([(254, 7)] : Memory) ∧
    ∀ cell ∈ ([(254, 7)] : Memory), cell.1 ≠ (253 : PcWord).toNat := by decide

theorem witness_HostWriteContract : Memory.wf ([] : Memory) ∧ 255 ≤ 255 ∧ 254 < 255 := by decide

theorem witness_StepsExactlyWhileRunning : State.reset.cfg.Legal ∧ State.reset.runState = .running ∧
    State.reset.halt.cfg.Legal ∧ State.reset.halt.runState = .halted ∧
    (State.reset.takeFault (.opcodeFetch 255)).cfg.Legal ∧ (State.reset.takeFault (.opcodeFetch 255)).runState = .faulted := by
  decide

theorem witness_StepRunsTheDecodedInstruction : (at' 252 [0x82, 1, 7]).Ready ∧
    decode (at' 252 [0x82, 1, 7]).cfg (at' 252 [0x82, 1, 7]).bytesAtPc = .ok (.ldi 1 7, []) := ⟨by decide, rfl⟩

theorem witness_OpcodeFetchRule : (at' 254 []).pc.toNat < (at' 254 []).cfg.memCap ∧ (at' 255 []).Ready ∧
    (at' 255 []).cfg.memCap ≤ (at' 255 []).pc.toNat := by decide

theorem witness_UnsupportedOpcodeRule : (at' 254 [0xA0]).Ready ∧ (at' 254 [0xA0]).byteAt? 0 = some 0xA0 ∧
    (0xA0 : Byte) ∉ (at' 254 [0xA0]).cfg.opcodes ∧ (at' 3 [0xA2, 8, 9]).byteAt? 0 = some 0xA2 ∧
    (0xA2 : Byte) ∈ (at' 3 [0xA2, 8, 9]).cfg.opcodes ∧ (faultAfter? (at' 3 [0xA2, 8, 9])).isSome = true := by decide

theorem witness_UnwrittenMemoryIsUnsupportedOpcode : (at' 5 []).Ready ∧ (at' 5 []).pc.toNat < (at' 5 []).cfg.memCap ∧
    (∀ cell ∈ (at' 5 []).mem, cell.1 ≠ (at' 5 []).pc.toNat) ∧ (0 : Byte) ∉ (at' 5 []).cfg.opcodes := by decide

/-- Clause by clause: no opcode byte, an unsupported one, no operand A, no operand B, a bad A, a bad B, all good. -/
theorem witness_ChecksInTheirFixedOrder :
    ((at' 255 []).Ready ∧ (at' 255 []).byteAt? 0 = none) ∧ (at' 254 [0xA0]).byteAt? 0 = some 0xA0 ∧
    ((at' 254 [0x47]).byteAt? 0 = some ((at' 254 [0x47]).cfg.byteOf .prn) ∧ (at' 254 [0x47]).byteAt? 1 = none) ∧
    ((at' 253 [0xA2, 9]).byteAt? 1 ≠ none ∧ (at' 253 [0xA2, 9]).byteAt? 2 = none) ∧
    ((at' 252 [0xA2, 8, 9]).byteAt? 1 = some 8 ∧ (at' 252 [0xA2, 8, 9]).byteAt? 2 = some 9) ∧
    ((at' 252 [0xA2, 7, 8]).byteAt? 1 = some 7 ∧ (at' 252 [0xA2, 7, 8]).byteAt? 2 = some 8) ∧
    ((at' 252 [0xA2, 7, 7]).byteAt? 1 = some 7 ∧ (at' 252 [0xA2, 7, 7]).byteAt? 2 = some 7) := by decide

theorem witness_CompleteSetOfFaultConditions : (after? (at' 254 [0x01])).isSome = true ∧
    (after? (at' 254 [0x82])).isSome = true := by decide

/-- The three conditions, at the boundaries: no opcode byte, no operand byte, a register index of 8. -/
theorem witness_OutOfRangeAccessRule : (faultAfter? (at' 255 [])).map (fun f => (f.cause, f.sub)) =
      some (.outOfRangeAccess, .opcodeFetch) ∧
    (faultAfter? (at' 253 [0x82, 1])).map (fun f => (f.cause, f.sub)) = some (.outOfRangeAccess, .operandFetch) ∧
    (faultAfter? (at' 253 [0x47, 8])).map (fun f => (f.cause, f.sub, f.info)) =
      some (.outOfRangeAccess, .regIndex, 8) ∧
    (faultAfter? (at' 252 [0xA2, 7, 255])).map (fun f => (f.cause, f.sub, f.info)) =
      some (.outOfRangeAccess, .regIndex, 255) := by decide

theorem witness_FaultingStepWritesOnlyTheRecord : (faultAfter? (at' 254 [0x82])).isSome = true := by decide

theorem witness_UnsupportedAluOperationIsNeverRaised : (faultAfter? (at' 3 [0xA2, 8, 9])).isSome = true := by decide

theorem witness_PcAdderRule : (255 : PcWord).toNat ≤ 255 := by decide

/-- The three outcomes: the successor at the top of memory, a jump target of 255, a halt. -/
theorem witness_PcNeverWraps :
    (after? (at? 256 253 [0x82, 1, 7])).map (fun t => (t.runState, t.pc.toNat)) = some (.running, 256) ∧
    (after? (withRegs (at' 3 [0x54, 0]) [(0, 255)])).map (fun t => (t.runState, t.pc.toNat)) = some (.running, 255) ∧
    (after? (at' 254 [0x01])).map (fun t => (t.runState, t.pc.toNat)) = some (.halted, 254) ∧
    decoded? (at? 256 253 [0x82, 1, 7]).cfg (at? 256 253 [0x82, 1, 7]).bytesAtPc = some (.ldi 1 7, []) := by decide

theorem witness_OnlyTheInstructionsBytesAreRead : (at' 253 [0x47, 0]).cfg.Legal ∧
    decode (at' 253 [0x47, 0]).cfg (at' 253 [0x47, 0]).bytesAtPc = .ok (.prn 0, []) ∧
    (at' 253 [0x47, 0]).runState = .running ∧ (at' 253 [0x47, 0]).halt.runState ≠ .running := ⟨by decide, rfl, rfl, by decide⟩

/-- `mem_addr` is 8 bits wide and idle once the run has ended (R22, R70). -/
theorem test_mem_addr : (at' 253 [0x47, 0]).fetchAddrs = [253, 254] ∧ (at' 254 [0x47]).fetchAddrs = [254] ∧
    (at' 253 [0x47, 0]).halt.fetchAddrs = [] := by decide

theorem witness_OtherMemoryDoesNotAffectTheStep :
    (∀ addr ∈ (at' 0 [0x47, 1, 5]).fetchAddrs,
      Memory.read [(0, 0x47), (1, 1), (2, 99)] addr.toNat = (at' 0 [0x47, 1, 5]).mem.read addr.toNat) ∧
    (after? (at' 0 [0x47, 1, 5])).isSome = true := by decide

/-- The fetch faults of a three-byte instruction, a bad index and the legal form with the highest register. -/
theorem witness_LdiRule : (at' 252 [0x82, 7, 255]).Ready ∧ (at' 255 []).byteAt? 0 = none ∧
    ((at' 254 [0x82]).byteAt? 0 = some 0x82 ∧ (at' 254 [0x82]).byteAt? 1 = none) ∧
    ((at' 253 [0x82, 1]).byteAt? 1 ≠ none ∧ (at' 253 [0x82, 1]).byteAt? 2 = none) ∧
    ((at' 252 [0x82, 8, 5]).byteAt? 1 = some 8 ∧ (at' 252 [0x82, 8, 5]).byteAt? 2 = some 5) ∧
    ((at' 252 [0x82, 7, 255]).byteAt? 1 = some (regByte 7) ∧ (at' 252 [0x82, 7, 255]).byteAt? 2 = some 255) := by decide

theorem witness_PrnRule : (at' 253 [0x47, 7]).Ready ∧ (at' 253 [0x47, 7]).byteAt? 0 = some 0x47 ∧
    (at' 253 [0x47, 7]).byteAt? 1 = some (regByte 7) ∧ (at' 253 [0x47, 8]).byteAt? 1 = some 8 ∧
    ((at' 254 [0x47]).byteAt? 0 = some 0x47 ∧ (at' 254 [0x47]).byteAt? 1 = none) := by decide

theorem witness_MulRule : (at' 252 [0xA2, 7, 7]).Ready ∧ (at' 252 [0xA2, 7, 7]).byteAt? 0 = some 0xA2 ∧
    ((at' 252 [0xA2, 7, 7]).byteAt? 1 = some (regByte 7) ∧ (at' 252 [0xA2, 7, 7]).byteAt? 2 = some (regByte 7)) ∧
    (at' 252 [0xA2, 8, 9]).byteAt? 1 = some 8 ∧
    ((at' 252 [0xA2, 7, 8]).byteAt? 1 = some 7 ∧ (at' 252 [0xA2, 7, 8]).byteAt? 2 = some 8) := by decide

/-- Equal, less and greater, at the extremes of the unsigned range. -/
theorem witness_CmpRule : (withRegs (at' 252 [0xA7, 0, 1]) [(0, 0), (1, 255)]).Ready ∧
    ((at' 252 [0xA7, 0, 1]).byteAt? 0 = some 0xA7 ∧ (at' 252 [0xA7, 0, 1]).byteAt? 1 = some (regByte 0) ∧
      (at' 252 [0xA7, 0, 1]).byteAt? 2 = some (regByte 1)) ∧
    ((withRegs (at' 252 [0xA7, 0, 1]) [(0, 0), (1, 255)]).readReg 0).toNat
      < ((withRegs (at' 252 [0xA7, 0, 1]) [(0, 0), (1, 255)]).readReg 1).toNat ∧
    ((withRegs (at' 252 [0xA7, 0, 1]) [(0, 255), (1, 0)]).readReg 1).toNat
      < ((withRegs (at' 252 [0xA7, 0, 1]) [(0, 255), (1, 0)]).readReg 0).toNat ∧
    (at' 252 [0xA7, 0, 1]).readReg 0 = (at' 252 [0xA7, 0, 1]).readReg 1 ∧
    (at' 252 [0xA7, 8, 1]).byteAt? 1 = some 8 ∧ (at' 252 [0xA7, 7, 8]).byteAt? 2 = some 8 := by decide

theorem witness_JmpRule : (at' 253 [0x54, 7]).Ready ∧ (at' 253 [0x54, 7]).byteAt? 0 = some 0x54 ∧
    (at' 253 [0x54, 7]).byteAt? 1 = some (regByte 7) ∧ (at' 253 [0x54, 8]).byteAt? 1 = some 8 := by decide

theorem witness_JeqRule : (at' 253 [0x55, 7]).Ready ∧ (at' 253 [0x55, 7]).byteAt? 0 = some 0x55 ∧
    (at' 253 [0x55, 7]).byteAt? 1 = some (regByte 7) ∧ (at' 253 [0x55, 8]).byteAt? 1 = some 8 ∧
    (at' 253 [0x55, 7]).flags.E = false ∧ ((at' 253 [0x55, 7]).setFlags ⟨true, false, false⟩).flags.E = true := by decide

theorem witness_JneRule : (at' 253 [0x56, 7]).Ready ∧ (at' 253 [0x56, 7]).byteAt? 0 = some 0x56 ∧
    (at' 253 [0x56, 7]).byteAt? 1 = some (regByte 7) ∧ (at' 253 [0x56, 8]).byteAt? 1 = some 8 ∧
    (at' 253 [0x56, 7]).flags.E = false ∧ ((at' 253 [0x56, 7]).setFlags ⟨true, false, false⟩).flags.E = true := by decide

theorem witness_HltRule : (at' 254 [0x01]).Ready ∧ (at' 254 [0x01]).byteAt? 0 = some 0x01 ∧
    (at' 255 []).Ready ∧ (at' 255 []).byteAt? 0 = none := by decide

theorem witness_RegisterIndexCheck : 8 ≤ (8 : Byte).toNat ∧ (7 : Byte).toNat < 8 ∧ 8 ≤ (255 : Byte).toNat := by decide

theorem witness_RegisterWritersFrame :
    (∃ t, exec (.ldi 7 1) State.reset = .next t) ∧ (∃ t, exec (.mul 7 8) State.reset = .next t) ∧
    (Instr.ldi 7 1).wellFormed = true ∧ (Instr.mul 7 8).wellFormed = false ∧ (6 : RegIdx).val ≠ (7 : Byte).toNat :=
  ⟨⟨_, rfl⟩, ⟨_, rfl⟩, by decide, by decide, by decide⟩

theorem witness_CompareFrame :
    (∃ t, exec (.cmp 7 7) State.reset = .next t) ∧ (∃ t, exec (.cmp 7 8) State.reset = .next t) ∧
    (Instr.cmp 7 7).wellFormed = true ∧ (Instr.cmp 7 8).wellFormed = false := ⟨⟨_, rfl⟩, ⟨_, rfl⟩, by decide, by decide⟩

theorem witness_PrintFrame :
    (∃ t, exec (.prn 7) State.reset = .next t) ∧ (∃ t, exec (.prn 8) State.reset = .next t) ∧
    (Instr.prn 7).wellFormed = true ∧ (Instr.prn 8).wellFormed = false := ⟨⟨_, rfl⟩, ⟨_, rfl⟩, by decide, by decide⟩

theorem witness_JumpsFrame :
    (∃ t, exec (.jeq 7) State.reset = .next t) ∧ (∃ t, exec (.jne 8) State.reset = .next t) ∧
    (Instr.jeq 7).wellFormed = true ∧ (Instr.jne 8).wellFormed = false := ⟨⟨_, rfl⟩, ⟨_, rfl⟩, by decide, by decide⟩

theorem witness_HaltFrame : ∃ t, exec .hlt State.reset = .next t := ⟨_, rfl⟩

theorem witness_OnlyCompareWritesFlags :
    (after? (at' 0 [0xA7, 0, 1])).map (fun t => (decide (t.flags ≠ (at' 0 [0xA7, 0, 1]).flags), t.runState))
      = some (true, .running) := by decide

theorem witness_LessAndGreaterAreNeverRead :
    (at' 0 [0x55, 0]).sameButLG ((at' 0 [0x55, 0]).setFlags ⟨false, true, true⟩) ∧
    ∃ t, core.run 1 (at' 0 [0x55, 0]) = .next t := ⟨rfl, _, rfl⟩

theorem witness_JumpRightAfterCompareSeesIt :
    (at' 250 [0xA7, 0, 1, 0x55, 2]).Ready ∧ (at' 250 [0xA7, 0, 1, 0x55, 2]).byteAt? 0 = some 0xA7 ∧
    (at' 250 [0xA7, 0, 1, 0x55, 2]).byteAt? 1 = some (regByte 0) ∧
    (at' 250 [0xA7, 0, 1, 0x55, 2]).byteAt? 2 = some (regByte 1) ∧
    (at' 250 [0xA7, 0, 1, 0x55, 2]).byteAt? 3 = some 0x55 ∧
    (at' 250 [0xA7, 0, 1, 0x55, 2]).byteAt? 4 = some (regByte 2) ∧
    (at' 250 [0xA7, 0, 1, 0x55, 2]).readReg 0 = (at' 250 [0xA7, 0, 1, 0x55, 2]).readReg 1 ∧
    (withRegs (at' 250 [0xA7, 0, 1, 0x55, 2]) [(0, 1)]).readReg 0
      ≠ (withRegs (at' 250 [0xA7, 0, 1, 0x55, 2]) [(0, 1)]).readReg 1 := by decide

theorem witness_OutputStreamRule : (after? (at' 0 [0x47, 5])).map (fun t => t.out) = some [0] ∧
    (after? (at' 0 [0x01])).map (fun t => t.out) = some [] ∧ (decimal 0).head? = some '0' := by decide

theorem witness_HaltsExactlyOnHlt : (after? (at' 254 [0x01])).map (fun t => t.runState) = some .halted ∧
    (after? (at' 0 [0x54, 0])).map (fun t => t.runState) = some .running := by decide

theorem witness_JumpToItselfNeverEnds : (withRegs (at' 8 [0x54, 1]) [(1, 8)]).Ready ∧
    (withRegs (at' 8 [0x54, 1]) [(1, 8)]).byteAt? 0 = some 0x54 ∧
    (withRegs (at' 8 [0x54, 1]) [(1, 8)]).byteAt? 1 = some (regByte 1) ∧
    ((withRegs (at' 8 [0x54, 1]) [(1, 8)]).readReg 1).toNat = (withRegs (at' 8 [0x54, 1]) [(1, 8)]).pc.toNat := by decide

/-- A state that meets the invariant, from which a step is made. -/
theorem witness_EveryStepKeepsTheInvariant : (at' 0 [0x82, 0, 8]).Inv ∧ ∃ t, step (at' 0 [0x82, 0, 8]) = .next t := by
  refine ⟨⟨by decide, by decide, by decide, by decide, by decide, by decide, ?_⟩, _, rfl⟩
  exact ⟨rfl, rfl, rfl⟩

theorem witness_EveryReachableStateKeepsTheInvariant : Config.default.Legal ∧
    ∃ z, (System.start Config.default).applyAll [.load 0 0x01, .launch, .step, .reset] = .next z :=
  ⟨by decide, _, rfl⟩

end Sys2Proof.Tests
end

section
/-! Reset (10_state.md R23), what an instruction answers in terms of `Effect` and `badOperand`, and the output
stream (10_state.md R18). -/

namespace Sys2Proof.Machine

/-! ### Reset -/

@[simp] theorem State.readReg_reset (r : RegIdx) : State.reset.readReg r = 0 := by
  simp [State.readReg, State.reset]

@[simp] theorem State.reset_mem_read (a : Nat) : State.reset.mem.read a = 0 := rfl

/-- Settles O6: the fields of the reset state, which the reset of any state has. -/
theorem resetZeroesEverything : Obligations.ResetZeroesEverything := fun s =>
  ⟨fun r => (State.readReg_congr s.applyReset_x r).trans (State.readReg_reset r),
    rfl, rfl, State.reset_mem_read, rfl, rfl, rfl, rfl⟩

/-! ### What an instruction answers -/

/-- The converse of the first case of `exec_cases`. -/
theorem exec_of_effect {i : Instr} {s t : State} (h : Effect s i t) : exec i s = .next t := by
  cases h with
  | ldi r imm => exact withRegA_regByte ..
  | prn r => exact withRegA_regByte ..
  | mul ra rb => exact withRegAB_regByte ..
  | cmp ra rb => exact withRegAB_regByte ..
  | jmp r => exact withRegA_regByte ..
  | jeq r => exact withRegA_regByte ..
  | jne r => exact withRegA_regByte ..
  | hlt => rfl

/-- An instruction that has an effect passed the register index checks (R74). -/
theorem Effect.badOperand_eq_none {i : Instr} {s t : State} (h : Effect s i t) : badOperand i = none := by
  have low (r : RegIdx) : ¬ 8 ≤ (regByte r).toNat := by rw [regByte_toNat]; omega
  cases h <;> simp only [badOperand, low, if_false]

/-- The converse of the second case of `exec_cases`: the first register operand that names no register faults (R74). -/
theorem exec_of_badOperand {i : Instr} {operand : Byte} (s : State) (h : badOperand i = some operand) :
    exec i s = .next (s.takeFault (.regIndex (s.cfg.byteOf i.opcode) operand)) := by
  obtain ⟨t, ht⟩ := exec_next i s
  rcases exec_cases ht with hE | ⟨operand', -, -, hb, rfl⟩
  · rw [hE.badOperand_eq_none] at h
    cases h
  · rw [hb] at h
    cases h
    exact ht

/-! ### What a step appends to the output -/

@[simp] theorem State.jumpIf_out (s : State) (taken : Bool) (r : RegIdx) : (s.jumpIf taken r).out = s.out := by
  cases taken <;> rfl

/-- Only PRN appends to the output, and it appends the value of its register (R91). -/
theorem Effect.out_cases {i : Instr} {s t : State} (h : Effect s i t) :
    t.out = s.out ∨ ∃ r, i = .prn (regByte r) ∧ t.out = s.out ++ [s.readReg r] := by
  cases h with
  | prn r => exact .inr ⟨r, rfl, rfl⟩
  | ldi | mul | cmp | jmp | hlt => exact .inl rfl
  | jeq | jne => exact .inl (State.jumpIf_out ..)

/-- The bytes that assemble to a PRN are the two bytes of that PRN. -/
theorem State.Holds.prn {s : State} {op : Opcode} {a b c : Byte} (h : s.Holds op a b) (hi : assemble op a b = .prn c) :
    s.byteAt? 0 = some s.cfg.opcPrn ∧ s.byteAt? 1 = some c := by
  obtain ⟨h0, h1, -⟩ := h
  cases op <;> cases hi
  exact ⟨h0, h1 (by decide)⟩

/-- A step leaves the output unchanged, or is the step of a PRN and appends the value of its register. -/
theorem step_out_cases {s t : State} (h : step s = .next t) :
    t.out = s.out ∨ ∃ r, s.byteAt? 0 = some s.cfg.opcPrn ∧ s.byteAt? 1 = some (regByte r) ∧
      t.out = s.out ++ [s.readReg r] := by
  obtain ⟨-, ⟨r, -, rfl⟩ | ⟨op, a, b, hH, he⟩⟩ := step_cases h
  · exact .inl rfl
  · rcases exec_cases he with hE | ⟨operand, -, -, -, rfl⟩
    · rcases hE.out_cases with ho | ⟨r, hi, ho⟩
      · exact .inl ho
      · obtain ⟨h0, h1⟩ := hH.prn hi
        exact .inr ⟨r, h0, h1, ho⟩
    · exact .inl rfl

/-! ### Nothing reads the output -/

/-- The state with another output stream. -/
def State.withOut (s : State) (o : List Byte) : State := { s with out := o }

/-- The state `t` a step leads to from `s`, had the output been `o` at the step's start. -/
def State.rebaseOut (s : State) (o : List Byte) (t : State) : State := t.withOut (o ++ t.out.drop s.out.length)

theorem State.rebaseOut_of_out_eq {s t : State} (o : List Byte) (h : t.out = s.out) :
    s.rebaseOut o t = t.withOut o := by
  simp [State.rebaseOut, h]

theorem State.rebaseOut_of_out_append {s t : State} {v : Byte} (o : List Byte) (h : t.out = s.out ++ [v]) :
    s.rebaseOut o t = t.withOut (o ++ [v]) := by
  simp [State.rebaseOut, h]

theorem State.jumpIf_withOut (s : State) (o : List Byte) (taken : Bool) (r : RegIdx) :
    (s.withOut o).jumpIf taken r = (s.jumpIf taken r).withOut o := by
  cases taken <;> rfl

/-- The fetch does not look at the output. -/
theorem State.fetchInstr_withOut (s : State) (o : List Byte) : (s.withOut o).fetchInstr = s.fetchInstr := rfl

/-- The effect of an instruction is the same whatever the output was. -/
theorem Effect.rebaseOut {i : Instr} {s t : State} (o : List Byte) (h : Effect s i t) :
    Effect (s.withOut o) i (s.rebaseOut o t) := by
  cases h with
  | prn r =>
    rw [State.rebaseOut_of_out_append o (by rfl)]
    exact .prn r
  | ldi | mul | cmp | jmp | hlt =>
    rw [State.rebaseOut_of_out_eq o (by rfl)]
    constructor
  | jeq r | jne r =>
    rw [State.rebaseOut_of_out_eq o (s.jumpIf_out _ r), ← State.jumpIf_withOut]
    constructor

theorem State.takeFault_withOut (s : State) (o : List Byte) (r : Raise) :
    (s.withOut o).takeFault r = s.rebaseOut o (s.takeFault r) :=
  (State.rebaseOut_of_out_eq o (s.takeFault_out r)).symm

/-- An instruction does the same whatever the output was. -/
theorem exec_withOut {i : Instr} {s t : State} (o : List Byte) (h : exec i s = .next t) :
    exec i (s.withOut o) = .next (s.rebaseOut o t) := by
  rcases exec_cases h with hE | ⟨operand, -, -, hb, rfl⟩
  · exact exec_of_effect (hE.rebaseOut o)
  · rw [exec_of_badOperand _ hb, State.takeFault_withOut]
    rfl

/-- A step does the same whatever the output was. -/
theorem step_withOut {s t : State} (o : List Byte) (h : step s = .next t) :
    step (s.withOut o) = .next (s.rebaseOut o t) := by
  have hs : s.Ready := (step_cases h).1
  rw [step_of_ready hs] at h
  rw [step_of_ready (s := s.withOut o) hs, State.fetchInstr_withOut]
  cases hf : s.fetchInstr <;> rw [hf] at h
  case error r =>
    cases h
    exact congrArg Host.Outcome.next (s.takeFault_withOut o r)
  case ok i => exact exec_withOut o h

/-! ### The decimal rendering -/

theorem digit_toNat {n : Nat} (h : n < 10) : (digit n).toNat = 48 + n := by decide +revert

theorem digit_isDigit {n : Nat} (h : n < 10) : (digit n).isDigit = true := by decide +revert

theorem digit_eq_zero {n : Nat} (h : n < 10) (hd : digit n = '0') : n = 0 := by
  have hn : 48 + n = 48 := by rw [← digit_toNat h, hd]; rfl
  omega

/-- The digits of a byte: one, or two or three of which the first is not 0. -/
theorem decimal_cases (v : Byte) :
    (∃ a < 10, v.toNat = a ∧ decimal v = [digit a]) ∨
    (∃ a < 10, ∃ b < 10, a ≠ 0 ∧ v.toNat = 10 * a + b ∧ decimal v = [digit a, digit b]) ∨
    ∃ a < 10, ∃ b < 10, ∃ c < 10, a ≠ 0 ∧ v.toNat = 10 * (10 * a + b) + c ∧
      decimal v = [digit a, digit b, digit c] := by
  have hv := v.isLt
  by_cases h1 : v.toNat < 10
  · exact .inl ⟨_, h1, rfl, by simp [decimal, h1]⟩
  · by_cases h2 : v.toNat < 100
    · exact .inr (.inl ⟨v.toNat / 10, by omega, v.toNat % 10, by omega, by omega, by omega, by simp [decimal, h1, h2]⟩)
    · exact .inr (.inr ⟨v.toNat / 100, by omega, v.toNat / 10 % 10, by omega, v.toNat % 10, by omega, by omega, by omega,
        by simp [decimal, h1, h2]⟩)

theorem digitsValue_decimal (v : Byte) : digitsValue (decimal v) = v.toNat := by
  rcases decimal_cases v with ⟨a, ha, hv, hd⟩ | ⟨a, ha, b, hb, -, hv, hd⟩ | ⟨a, ha, b, hb, c, hc, -, hv, hd⟩
  · simp [hd, hv, digitsValue, digit_toNat ha]
  · simp [hd, hv, digitsValue, digit_toNat ha, digit_toNat hb]
  · simp [hd, hv, digitsValue, digit_toNat ha, digit_toNat hb, digit_toNat hc]

theorem isDigit_of_mem_decimal (v : Byte) : ∀ d ∈ decimal v, d.isDigit = true := by
  rcases decimal_cases v with ⟨a, ha, -, hd⟩ | ⟨a, ha, b, hb, -, -, hd⟩ | ⟨a, ha, b, hb, c, hc, -, -, hd⟩
  · simp [hd, digit_isDigit ha]
  · simp [hd, digit_isDigit ha, digit_isDigit hb]
  · simp [hd, digit_isDigit ha, digit_isDigit hb, digit_isDigit hc]

/-- Only the byte 0 is rendered with a leading zero. -/
theorem decimal_of_leading_zero {v : Byte} (h : (decimal v).head? = some '0') : decimal v = ['0'] := by
  rcases decimal_cases v with ⟨a, -, -, hd⟩ | ⟨a, ha, b, -, ha0, -, hd⟩ | ⟨a, ha, b, -, c, -, ha0, -, hd⟩ <;>
    simp only [hd, List.head?_cons, Option.some.injEq] at h
  · rw [hd, h]
  · exact absurd (digit_eq_zero ha h) ha0
  · exact absurd (digit_eq_zero ha h) ha0

/-! ### The output stream -/

theorem outPulse_of_out_eq {s t : State} (h : t.out = s.out) : outPulse s t = none := by
  simp [outPulse, h]

theorem outPulse_of_out_append {s t : State} {v : Byte} (h : t.out = s.out ++ [v]) : outPulse s t = some v := by
  simp [outPulse, h]

/-- Settles O55: what a step appends (`step_out_cases`), that it does not read the output (`step_withOut`), and the digits
of a byte (`decimal_cases`). -/
theorem outputStreamRule : Obligations.OutputStreamRule := by
  refine ⟨rfl, fun s t h => ?_, fun s t o h => step_withOut o h,
    fun v => ⟨digitsValue_decimal v, isDigit_of_mem_decimal v, decimal_of_leading_zero⟩⟩
  rcases step_out_cases h with ho | ⟨r, h0, h1, ho⟩
  · exact .inl ⟨ho, outPulse_of_out_eq ho⟩
  · exact .inr ⟨r, h0, h1, ho, outPulse_of_out_append ho⟩

end Sys2Proof.Machine
end

section
/-! The write port and what instructions leave of memory (20_memory.md R32). -/

namespace Sys2Proof.Machine

/-! ### The write port -/

theorem memWrite_of_le {cap addr : Nat} (m : Memory) (v : Nat) (h : cap ≤ addr) : memWrite cap m addr v = none :=
  if_neg (Nat.not_lt.2 h)

theorem memWrite_of_lt {cap addr : Nat} (m : Memory) (v : Nat) (h : addr < cap) :
    memWrite cap m addr v = some (m.write addr (BitVec.ofNat 8 v)) :=
  if_pos h

/-! ### No instruction writes memory -/

@[simp] theorem State.jumpIf_mem (s : State) (taken : Bool) (r : RegIdx) : (s.jumpIf taken r).mem = s.mem := by
  cases taken <;> rfl

theorem Effect.mem_eq {i : Instr} {s t : State} (h : Effect s i t) : t.mem = s.mem := by
  cases h with
  | ldi | prn | mul | cmp | jmp | hlt => rfl
  | jeq | jne => exact State.jumpIf_mem ..

theorem exec_mem_eq {i : Instr} {s t : State} (h : exec i s = .next t) : t.mem = s.mem := by
  rcases exec_cases h with hE | ⟨operand, -, -, -, rfl⟩
  · exact hE.mem_eq
  · exact s.takeFault_mem _

theorem step_mem_eq {s t : State} (h : step s = .next t) : t.mem = s.mem := by
  obtain ⟨-, ⟨r, -, rfl⟩ | ⟨op, a, b, -, he⟩⟩ := step_cases h
  · exact s.takeFault_mem r
  · exact exec_mem_eq he

/-- Settles O15: in range the port is `Memory.write`, which keeps the canonical form and changes one cell; a step keeps the
whole memory (`step_mem_eq`). -/
theorem hostWriteContract : Obligations.HostWriteContract := by
  intro cap m addr v hm
  refine ⟨memWrite_of_le m v, fun h => ?_, fun s t hst b => by rw [step_mem_eq hst]⟩
  refine ⟨_, memWrite_of_lt m v h, Memory.write_wf addr _ hm, ?_, fun b hb => Memory.read_write_other _ hb⟩
  rw [Memory.read_write_same addr _ hm, BitVec.toNat_ofNat]

end Sys2Proof.Machine
end

section
/-! The decoder's control outputs (30_encoding.md R63). -/

namespace Sys2Proof.Machine

/-- In a legal configuration the outputs for an opcode byte are the row of that opcode. -/
theorem controlOf_byteOf {c : Config} (h : c.opcodes.Nodup) (op : Opcode) : controlOf c (c.byteOf op) = op.control := by
  simp only [controlOf, recognise_byteOf h]

theorem controlOf_of_notMem {c : Config} {b : Byte} (h : b ∉ c.opcodes) : controlOf c b = Control.unsupported := by
  simp only [controlOf, recognise_eq_none.2 h]

/-- In every configuration, legal or not, the outputs are one of the nine rows. -/
theorem controlOf_cases (c : Config) (b : Byte) :
    (∃ op : Opcode, controlOf c b = op.control) ∨ controlOf c b = Control.unsupported := by
  unfold controlOf
  cases recognise c b with
  | some op => exact .inl ⟨op, rfl⟩
  | none => exact .inr rfl

/-- No row of an opcode selects ADD (0) or the unassigned select 3. -/
theorem control_aluOp_ne (op : Opcode) : op.control.aluOp ≠ some 0 ∧ op.control.aluOp ≠ some 3 := by
  cases op <;> decide

theorem controlOf_aluOp_ne (c : Config) (b : Byte) :
    (controlOf c b).aluOp ≠ some 0 ∧ (controlOf c b).aluOp ≠ some 3 := by
  rcases controlOf_cases c b with ⟨op, h⟩ | h <;> rw [h]
  · exact control_aluOp_ne op
  · decide

/-- Settles O5: the row of each opcode (`controlOf_byteOf`), the row of any other byte, and that no row has ADD or select
3 (`controlOf_aluOp_ne`). -/
theorem decoderOutputsAreTheTable : Obligations.DecoderOutputsAreTheTable := by
  rintro c ⟨-, -, hnd⟩
  have row : ∀ op, controlOf c (c.byteOf op) = op.control := controlOf_byteOf hnd
  exact ⟨row .ldi, row .prn, row .mul, row .cmp, row .jmp, row .jeq, row .jne, row .hlt,
    fun _ hb => ⟨0, controlOf_of_notMem hb⟩, controlOf_aluOp_ne c⟩

end Sys2Proof.Machine
end

section
/-! The checks of a step in their fixed order (40_fetch_decode_cycle.md R79), the opcode fetch (R71), the PC adder (R76)
and the jump/branch multiplexer (R77). -/

namespace Sys2Proof.Machine

/-! ### The bytes from `pc` on -/

theorem State.byteAt?_of_lt {s : State} {k : Nat} (h : s.pc.toNat + k < s.cfg.memCap) :
    s.byteAt? k = some (s.mem.read (s.pc.toNat + k)) :=
  if_pos h

theorem State.byteAt?_of_le {s : State} {k : Nat} (h : s.cfg.memCap ≤ s.pc.toNat + k) : s.byteAt? k = none :=
  if_neg (Nat.not_lt.2 h)

/-- A byte that is the byte of no opcode is none of the eight. -/
theorem notMem_opcodes_of_ne_byteOf {c : Config} {b : Byte} (h : ∀ op, b ≠ c.byteOf op) : b ∉ c.opcodes := by
  rw [← recognise_eq_none]
  cases hr : recognise c b with
  | none => rfl
  | some op => exact absurd (byteOf_of_recognise hr).symm (h op)

/-! ### The register index checks -/

@[simp] theorem opcode_assemble (op : Opcode) (a b : Byte) : (assemble op a b).opcode = op := by
  cases op <;> rfl

/-- The register index checks are those the decoder's `a_reg` and `b_reg` ask for, operand A before operand B (R63, R74). -/
theorem badOperand_assemble (op : Opcode) (a b : Byte) :
    badOperand (assemble op a b) =
      if op.control.aReg = true ∧ 8 ≤ a.toNat then some a
      else if op.control.bReg = true ∧ 8 ≤ b.toNat then some b else none := by
  cases op <;> simp [assemble, badOperand, Opcode.control]

/-- A step whose bytes are all there, and whose register operand names no register, ends with that operand's record. -/
theorem step_of_badOperand {s : State} {op : Opcode} {a b operand : Byte} (hs : s.Ready) (hH : s.Holds op a b)
    (h : badOperand (assemble op a b) = some operand) :
    step s = .next (s.badIndex (s.cfg.byteOf op) operand) := by
  rw [step_of_holds hs hH, exec_of_badOperand s h, opcode_assemble]
  rfl

/-! ### A step that has passed its checks -/

@[simp] theorem State.jumpIf_fault (s : State) (taken : Bool) (r : RegIdx) : (s.jumpIf taken r).fault = s.fault := by
  cases taken <;> rfl

@[simp] theorem State.jumpIf_runState (s : State) (taken : Bool) (r : RegIdx) :
    (s.jumpIf taken r).runState = s.runState := by
  cases taken <;> rfl

/-- The effect of an instruction leaves the record as it was. -/
theorem Effect.fault_eq {i : Instr} {s t : State} (h : Effect s i t) : t.fault = s.fault := by
  cases h with
  | ldi | prn | mul | cmp | jmp | hlt => rfl
  | jeq | jne => exact State.jumpIf_fault ..

/-- The effect of an instruction sets `run_state` to HALTED or leaves it. -/
theorem Effect.runState_cases {i : Instr} {s t : State} (h : Effect s i t) :
    t.runState = s.runState ∨ i = .hlt ∧ t.runState = .halted := by
  cases h with
  | ldi | prn | mul | cmp | jmp => exact .inl rfl
  | jeq | jne => exact .inl (State.jumpIf_runState ..)
  | hlt => exact .inr ⟨rfl, rfl⟩

theorem Effect.runState_ne_faulted {i : Instr} {s t : State} (h : Effect s i t) (hs : s.runState = .running) :
    t.runState ≠ .faulted := by
  rcases h.runState_cases with hr | ⟨-, hr⟩ <;> rw [hr]
  · rw [hs]
    decide
  · decide

/-- An instruction whose register operands all name a register has its effect. -/
theorem exec_effect_of_badOperand_eq_none {i : Instr} (s : State) (h : badOperand i = none) :
    ∃ t, exec i s = .next t ∧ Effect s i t := by
  obtain ⟨t, ht⟩ := exec_next i s
  rcases exec_cases ht with hE | ⟨operand, -, -, hb, -⟩
  · exact ⟨t, ht, hE⟩
  · rw [h] at hb
    cases hb

/-- Settles O21: the fetch checks are the cases of `FetchFault`, the index checks those of `badOperand`, and a step that
passes them all has its instruction's effect, which leaves the record. -/
theorem checksInTheirFixedOrder : Obligations.ChecksInTheirFixedOrder := by
  intro s hs
  refine ⟨fun h0 => step_of_fetchFault hs (.opcodeFetch h0),
    fun ir h0 hne => step_of_fetchFault hs (.unsupportedOpcode ir h0 (notMem_opcodes_of_ne_byteOf hne)),
    fun op h0 => ⟨fun hn h1 => step_of_fetchFault hs (.operandA op h0 hn h1), fun hn h1 h2 => ?_, fun a b h1 h2 => ?_⟩⟩
  · obtain ⟨a, h1⟩ := Option.ne_none_iff_exists'.1 h1
    exact step_of_fetchFault hs (.operandB op a h0 hn h1 h2)
  · have hH : s.Holds op a b := ⟨h0, h1, h2⟩
    have hbad := badOperand_assemble op a b
    refine ⟨fun hA ha => step_of_badOperand hs hH ?_, fun hB ha hb => step_of_badOperand hs hH ?_, fun hA hB => ?_⟩
    · rw [hbad, if_pos ⟨hA, ha⟩]
    · rw [hbad, if_neg fun h => Nat.not_lt.2 h.2 ha, if_pos ⟨hB, hb⟩]
    · rw [if_neg fun h => Nat.not_lt.2 h.2 (hA h.1), if_neg fun h => Nat.not_lt.2 h.2 (hB h.1)] at hbad
      obtain ⟨t, ht, hE⟩ := exec_effect_of_badOperand_eq_none s hbad
      exact ⟨t, (step_of_holds hs hH).trans ht, hE.runState_ne_faulted hs.2, hE.fault_eq⟩

/-- Settles O18: below the capacity there is a byte at `pc`; at or above it there is none, and the fetch faults. -/
theorem opcodeFetchRule : Obligations.OpcodeFetchRule := by
  refine fun s => ⟨fun h => ?_, fun hs h => step_of_fetchFault hs (.opcodeFetch (State.byteAt?_of_le h))⟩
  rw [fetchOpcode_eq, State.byteAt?_of_lt h]
  rfl

/-! ### The PC adder -/

theorem nOps_le_two (op : Opcode) : op.nOps ≤ 2 := by
  cases op <;> decide

/-- The sum does not wrap where the address is a byte's and the operands are at most two. -/
theorem pcAdder_toNat {pc : PcWord} {n : Nat} (hpc : pc.toNat ≤ 255) (hn : n ≤ 2) :
    (pcAdder pc n).toNat = pc.toNat + n + 1 := by
  simp only [pcAdder, BitVec.toNat_add, BitVec.toNat_ofNat]
  omega

/-- Settles O27: the sum is exact (`pcAdder_toNat`), and the operand counts are those of the formats. -/
theorem pcAdderRule : Obligations.PcAdderRule := fun _ hpc =>
  ⟨fun op => pcAdder_toNat hpc (nOps_le_two op), rfl, rfl, rfl, rfl, rfl, rfl, rfl, rfl⟩

/-! ### The jump/branch multiplexer -/

@[simp] theorem zext9_toNat (b : Byte) : (zext9 b).toNat = b.toNat :=
  BitVec.toNat_setWidth_of_le (by decide)

theorem jumpTaken_iff {jmp : JumpKind} {e : Bool} :
    jumpTaken jmp e = true ↔ jmp = .always ∨ (jmp = .ifE ∧ e = true) ∨ (jmp = .ifNotE ∧ e = false) := by
  cases jmp <;> simp [jumpTaken]

/-- The instructions that ask for a jump have one operand, so the next instruction is two bytes on. -/
theorem nOps_of_control_jmp_ne_none {op : Opcode} (h : op.control.jmp ≠ .none) : op.nOps = 1 := by
  cases op with
  | jmp | jeq | jne => rfl
  | ldi | prn | mul | cmp | hlt => exact absurd rfl h

/-- Which kind of jump each instruction asks for, and which one halts (R63). -/
theorem control_jmp_and_halt (op : Opcode) :
    (op.control.jmp = .always ↔ op = .jmp) ∧ (op.control.jmp = .ifE ↔ op = .jeq) ∧
      (op.control.jmp = .ifNotE ↔ op = .jne) ∧ (op.control.halt = true ↔ op = .hlt) := by
  cases op <;> decide

/-- Settles O28: the three candidates of `nextPc`, `jumpTaken_iff`, and the control table's jump column. -/
theorem jumpMultiplexerRule : Obligations.JumpMultiplexerRule := by
  refine fun jmp e taken pc seq data => ⟨rfl, zext9_toNat data, rfl, jumpTaken_iff, fun op => ?_⟩
  obtain ⟨hAlways, hE, hNotE, hHalt⟩ := control_jmp_and_halt op
  refine ⟨hAlways, hE, hNotE, hHalt, fun h => ?_⟩
  rw [nOps_of_control_jmp_ne_none h]
  rfl

end Sys2Proof.Machine
end

section
/-! LDI and PRN over the bytes in memory (41_load_immediate_and_output.md R90, R91). -/

namespace Sys2Proof.Machine

/-- The faults decided by the bytes alone are those of the fixed order, for the operand count of the opcode (R79). -/
theorem State.fetchFaults_byteOf {s : State} (hs : s.Ready) (op : Opcode) :
    s.FetchFaults (s.cfg.byteOf op) op.nOps := by
  obtain ⟨hNoOpcode, -, hOperands⟩ := checksInTheirFixedOrder s hs
  exact ⟨hNoOpcode, fun h0 => (hOperands op h0).1, fun h0 => (hOperands op h0).2.1⟩

/-- Settles O32: the fetch faults of a three-byte instruction, the index check on operand A, and the effect of LDI. -/
theorem ldiRule : Obligations.LdiRule := by
  refine ⟨rfl, fun s hs => ⟨State.fetchFaults_byteOf hs .ldi, fun a imm h0 h1 h2 => ?_⟩⟩
  have hH : s.Holds .ldi a imm := ⟨h0, fun _ => h1, fun _ => h2⟩
  refine ⟨fun ha => step_of_badOperand hs hH (if_pos ha), ?_⟩
  rintro r rfl
  exact (step_of_holds hs hH).trans (exec_of_effect (.ldi r imm))

theorem State.printed_of_out_append {s t : State} {v : Byte} (h : t.out = s.out ++ [v]) :
    t.printed = s.printed ++ [decimal v] := by
  simp [State.printed, h]

/-- Settles O33: the fetch faults of a two-byte instruction, the index check on operand A, and the effect of PRN, whose one
appended value is the pulse and the new line. -/
theorem prnRule : Obligations.PrnRule := by
  refine ⟨rfl, fun s hs => ⟨State.fetchFaults_byteOf hs .prn, fun a h0 h1 => ?_⟩⟩
  have hH : s.Holds .prn a 0 := ⟨h0, fun _ => h1, nofun⟩
  refine ⟨fun ha => step_of_badOperand hs hH (if_pos ha), ?_⟩
  rintro r rfl
  exact ⟨_, (step_of_holds hs hH).trans (exec_of_effect (.prn r)), rfl, outPulse_of_out_append rfl,
    State.printed_of_out_append rfl⟩

end Sys2Proof.Machine
end

section
/-! The ALU, the flag logic, and MUL and CMP over the bytes in memory (42_alu.md R95 to R99). -/

namespace Sys2Proof.Machine

/-! ### The ALU's results -/

theorem aluAdd_toNat (a b : Byte) : (aluAdd a b).toNat = (a.toNat + b.toNat) % 256 := by
  simp [aluAdd]

theorem aluMul_eq_mul (a b : Byte) : aluMul a b = a * b :=
  BitVec.eq_of_toNat_eq (by simp [aluMul])

/-- Select 0 is ADD (R96). -/
theorem aluApply_add (ir : Byte) (ra rb : RegIdx) (s : State) :
    aluApply 0 ir ra rb s = .ok (s.writeReg ra (aluAdd (s.readReg ra) (s.readReg rb))) := rfl

/-- Settles O50: what ADD writes (`aluApply_add`), its sum (`aluAdd_toNat`), and that no row of the control table has
select 0. -/
theorem aluAddRule : Obligations.AluAddRule := by
  refine fun ir ra rb s => ⟨⟨_, aluApply_add ir ra rb s, ?_, rfl, ?_⟩, fun c op => (controlOf_aluOp_ne c op).1⟩
  · rw [State.readReg_writeReg_same]
  · rw [State.readReg_writeReg_same, aluAdd_toNat]

/-! ### The flag outputs -/

theorem compareFlags_of_eq {a b : Byte} (h : a = b) : compareFlags a b = ⟨true, false, false⟩ := by
  simp [compareFlags, h]

theorem compareFlags_of_lt {a b : Byte} (h : a.toNat < b.toNat) : compareFlags a b = ⟨false, true, false⟩ := by
  simp [compareFlags, h, h.ne, h.le]

theorem compareFlags_of_gt {a b : Byte} (h : b.toNat < a.toNat) : compareFlags a b = ⟨false, false, true⟩ := by
  simp [compareFlags, h, h.ne', h.le]

/-- Two bytes are equal or one is less than the other, so exactly one flag is 1. -/
theorem compareFlags_count (a b : Byte) : (compareFlags a b).count = 1 := by
  rcases lt_trichotomy a.toNat b.toNat with h | h | h
  · rw [compareFlags_of_lt h]
    rfl
  · rw [compareFlags_of_eq (BitVec.eq_of_toNat_eq h)]
    rfl
  · rw [compareFlags_of_gt h]
    rfl

/-- Settles O51: each flag is its comparison, `compareFlags_count`, and the two values of `flags_we`. -/
theorem flagLogicRule : Obligations.FlagLogicRule := fun a b _ =>
  ⟨decide_eq_true_iff.trans BitVec.toNat_inj, decide_eq_true_iff, decide_eq_true_iff, compareFlags_count a b, rfl⟩

/-! ### MUL and CMP -/

/-- The register index checks of an instruction whose bytes are all there, as the decoder asks for them (R63, R79). -/
theorem State.Holds.index_faults {s : State} {op : Opcode} {a b : Byte} (hH : s.Holds op a b) (hs : s.Ready) :
    (op.control.aReg = true → 8 ≤ a.toNat → step s = .next (s.badIndex (s.cfg.byteOf op) a)) ∧
      (op.control.bReg = true → a.toNat < 8 → 8 ≤ b.toNat → step s = .next (s.badIndex (s.cfg.byteOf op) b)) := by
  obtain ⟨h0, h1, h2⟩ := hH
  obtain ⟨-, -, hOperands⟩ := checksInTheirFixedOrder s hs
  obtain ⟨-, -, hIndex⟩ := hOperands op h0
  obtain ⟨hA, hB, -⟩ := hIndex a b h1 h2
  exact ⟨hA, hB⟩

/-- Settles O34: the fetch faults of a three-byte instruction, the index checks on both operands, and the effect of MUL,
whose product is that of the bytes (`aluMul_eq_mul`). -/
theorem mulRule : Obligations.MulRule := by
  refine ⟨rfl, fun s hs => ⟨State.fetchFaults_byteOf hs .mul, fun a b h0 h1 h2 => ?_⟩⟩
  have hH : s.Holds .mul a b := ⟨h0, fun _ => h1, fun _ => h2⟩
  obtain ⟨hA, hB⟩ := hH.index_faults hs
  refine ⟨hA rfl, hB rfl, ?_⟩
  rintro ra rb rfl rfl
  have hstep := (step_of_holds hs hH).trans (exec_of_effect (.mul ra rb))
  rw [aluMul_eq_mul] at hstep
  exact ⟨hstep, BitVec.toNat_mul ..⟩

/-- Settles O35: the fetch faults of a three-byte instruction, the index checks on both operands, and the effect of CMP,
whose flags are those of the comparison's outcome. -/
theorem cmpRule : Obligations.CmpRule := by
  refine ⟨rfl, fun s hs => ⟨State.fetchFaults_byteOf hs .cmp, fun a b h0 h1 h2 => ?_⟩⟩
  have hH : s.Holds .cmp a b := ⟨h0, fun _ => h1, fun _ => h2⟩
  obtain ⟨hA, hB⟩ := hH.index_faults hs
  refine ⟨hA rfl, hB rfl, ?_⟩
  rintro ra rb rfl rfl
  have hstep : step s = .next { s with flags := compareFlags s.x[ra] s.x[rb], pc := s.pc + 3 } :=
    (step_of_holds hs hH).trans (exec_of_effect (.cmp ra rb))
  refine ⟨fun h => ?_, fun h => ?_, fun h => ?_⟩
  · rw [hstep, compareFlags_of_eq h]
  · rw [hstep, compareFlags_of_lt h]
  · rw [hstep, compareFlags_of_gt h]

end Sys2Proof.Machine
end

section
/-! JMP, JEQ and JNE over the bytes in memory (43_control_transfer.md R105 to R107). -/

namespace Sys2Proof.Machine

/-! ### Where a jump goes on -/

/-- A jump taken goes on at its register's value, zero-extended (R77). -/
theorem State.jumpIf_true (s : State) (r : RegIdx) :
    s.jumpIf true r = { s with pc := (s.x[r]).setWidth 9 } := rfl

/-- A jump not taken goes on past its own two bytes (R77). -/
theorem State.jumpIf_false (s : State) (r : RegIdx) : s.jumpIf false r = { s with pc := s.pc + 2 } := rfl

/-! ### The three jumps at once -/

/-- The three jumps have one effect, the jump/branch multiplexer's: it is taken as the decoder's jump kind and E say. -/
theorem effect_of_control_jmp_ne_none {op : Opcode} (h : op.control.jmp ≠ .none) (s : State) (r : RegIdx) (b : Byte) :
    Effect s (assemble op (regByte r) b) (s.jumpIf (jumpTaken op.control.jmp s.flags.E) r) := by
  cases op with
  | jmp => exact .jmp r
  | jeq => exact .jeq r
  | jne => exact .jne r
  | ldi | prn | mul | cmp | hlt => exact absurd rfl h

/-- The jumps check their register operand, whatever E is (R74). -/
theorem aReg_of_control_jmp_ne_none {op : Opcode} (h : op.control.jmp ≠ .none) : op.control.aReg = true := by
  cases op with
  | jmp | jeq | jne => rfl
  | ldi | prn | mul | cmp | hlt => exact absurd rfl h

/-- What the step of a jump does whose two bytes are there: it faults on an operand that names no register, and else goes
where the multiplexer says. -/
theorem step_of_control_jmp_ne_none {s : State} {op : Opcode} {a : Byte} (hs : s.Ready) (hj : op.control.jmp ≠ .none)
    (h0 : s.byteAt? 0 = some (s.cfg.byteOf op)) (h1 : s.byteAt? 1 = some a) :
    (8 ≤ a.toNat → step s = .next (s.badIndex (s.cfg.byteOf op) a)) ∧
      ∀ r, a = regByte r →
        (jumpTaken op.control.jmp s.flags.E = true → step s = .next { s with pc := (s.x[r]).setWidth 9 }) ∧
        (jumpTaken op.control.jmp s.flags.E = false → step s = .next { s with pc := s.pc + 2 }) := by
  have hOne := nOps_of_control_jmp_ne_none hj
  have hH : s.Holds op a 0 := ⟨h0, fun _ => h1, fun hTwo => by omega⟩
  obtain ⟨hBad, -⟩ := hH.index_faults hs
  refine ⟨hBad (aReg_of_control_jmp_ne_none hj), ?_⟩
  rintro r rfl
  have hstep := (step_of_holds hs hH).trans (exec_of_effect (effect_of_control_jmp_ne_none hj s r 0))
  refine ⟨fun hTaken => ?_, fun hNot => ?_⟩
  · rw [hstep, hTaken, State.jumpIf_true]
  · rw [hstep, hNot, State.jumpIf_false]

/-- Settles O36: the fetch faults of a two-byte instruction, and the step of a jump that is always taken. -/
theorem jmpRule : Obligations.JmpRule := by
  refine ⟨rfl, fun s hs => ⟨State.fetchFaults_byteOf hs .jmp, fun a h0 h1 => ?_⟩⟩
  obtain ⟨hBad, hGood⟩ := step_of_control_jmp_ne_none (op := .jmp) hs (by decide) h0 h1
  refine ⟨hBad, fun r ha => ?_⟩
  obtain ⟨hTaken, -⟩ := hGood r ha
  exact hTaken rfl

/-- Settles O37: the fetch faults of a two-byte instruction, and the step of a jump that is taken as E is. -/
theorem jeqRule : Obligations.JeqRule :=
  ⟨rfl, fun _ hs => ⟨State.fetchFaults_byteOf hs .jeq, fun _ h0 h1 =>
    step_of_control_jmp_ne_none (op := .jeq) hs (by decide) h0 h1⟩⟩

/-- Settles O38: the fetch faults of a two-byte instruction, and the step of a jump that is taken as E is not. -/
theorem jneRule : Obligations.JneRule := by
  refine ⟨rfl, fun s hs => ⟨State.fetchFaults_byteOf hs .jne, fun a h0 h1 => ?_⟩⟩
  obtain ⟨hBad, hGood⟩ := step_of_control_jmp_ne_none (op := .jne) hs (by decide) h0 h1
  refine ⟨hBad, fun r ha => ?_⟩
  obtain ⟨hTaken, hNot⟩ := hGood r ha
  exact ⟨fun hE => hTaken (congrArg not hE), fun hE => hNot (congrArg not hE)⟩

end Sys2Proof.Machine
end

section
/-! HLT over the bytes in memory (44_halt.md R115). -/

namespace Sys2Proof.Machine

/-- With the byte of an opcode at `pc`, the fetch unit drives `pc` and then the operand addresses of that opcode that exist
(R73). -/
theorem State.readAddrs_byteOf {s : State} {op : Opcode} (hl : s.cfg.Legal)
    (h0 : s.byteAt? 0 = some (s.cfg.byteOf op)) :
    s.readAddrs = s.pc :: ((List.range op.nOps).map fun k => s.operandAddr (k + 1)).filter
      fun addr => decide (addr.toNat < s.cfg.memCap) := by
  obtain ⟨-, -, hnd⟩ := hl
  have hFetch : s.fetchOpcode = .ok (s.cfg.byteOf op) := by rw [fetchOpcode_eq, h0]
  simp only [State.readAddrs, hFetch, recognise_byteOf hnd]

/-- An HLT has no operand, so its step drives the address of its opcode byte and no other. -/
theorem State.fetchAddrs_hlt {s : State} (hs : s.Ready) (h0 : s.byteAt? 0 = some s.cfg.opcHlt) :
    s.fetchAddrs = [s.pc.setWidth 8] := by
  obtain ⟨hl, hr⟩ := hs
  rw [fetchAddrs_running hr, State.readAddrs_byteOf (op := .hlt) hl h0]
  rfl

/-- A step is made only in a state that is RUNNING (R70). -/
theorem step_ne_next_of_runState_ne_running {s : State} (h : s.runState ≠ .running) (t : State) : step s ≠ .next t := by
  intro hstep
  obtain ⟨⟨-, hr⟩, -⟩ := step_cases hstep
  exact h hr

/-- Settles O39: the fetch faults of a one-byte instruction, the effect of HLT, the one address it drives
(`State.fetchAddrs_hlt`), and that a state which is not RUNNING has no step. -/
theorem hltRule : Obligations.HltRule := by
  refine ⟨rfl, fun s hs => ⟨State.fetchFaults_byteOf hs .hlt, fun h0 => ?_⟩⟩
  have hH : s.Holds .hlt 0 0 := ⟨h0, nofun, nofun⟩
  have hstep : step s = .next s.halt := (step_of_holds hs hH).trans (exec_of_effect .hlt)
  exact ⟨hstep, State.fetchAddrs_hlt hs h0, step_ne_next_of_runState_ne_running nofun, State.applyReset_runState _⟩

end Sys2Proof.Machine
end

section
/-! What a step that faults leaves (60_exceptions.md R121, R122, R127), and decoding the bytes at `pc`. -/

namespace Sys2Proof.Machine

/-! ### A step that faults -/

@[simp] theorem Raise.record_pc (pc : PcWord) (r : Raise) : (r.record pc).pc = pc := by
  cases r <;> rfl

/-- A step that ends FAULTED took a fault of the fetch, or that of a register operand that names no register. -/
theorem step_faulted_cases {s t : State} (h : step s = .next t) (hf : t.runState = .faulted) :
    (∃ r, FetchFault s r ∧ t = s.takeFault r) ∨
      ∃ op a b operand, s.Holds op a b ∧ badOperand (assemble op a b) = some operand ∧
        t = s.takeFault (.regIndex (s.cfg.byteOf op) operand) := by
  obtain ⟨⟨-, hr⟩, hFetch | ⟨op, a, b, hH, he⟩⟩ := step_cases h
  · exact .inl hFetch
  · rcases exec_cases he with hE | ⟨operand, -, -, hb, ht⟩
    · exact absurd hf (hE.runState_ne_faulted hr)
    · rw [opcode_assemble] at ht
      exact .inr ⟨op, a, b, operand, hH, hb, ht⟩

/-- Settles O24: a step that ends FAULTED is `takeFault`, which writes `run_state` and the record, and `fault_pc` is
`pc` (`Raise.record_pc`). -/
theorem faultingStepWritesOnlyTheRecord : Obligations.FaultingStepWritesOnlyTheRecord := by
  intro s t h hf
  rcases step_faulted_cases h hf with ⟨r, -, rfl⟩ | ⟨op, a, b, operand, -, -, rfl⟩
  · exact ⟨rfl, r.record_pc s.pc⟩
  · exact ⟨rfl, rfl⟩

/-! ### UnsupportedOpcode -/

/-- With a byte at `pc` that is no opcode byte, the fetch unit drives `pc` and no other address. -/
theorem State.readAddrs_of_notMem {s : State} {ir : Byte} (h0 : s.byteAt? 0 = some ir) (hn : ir ∉ s.cfg.opcodes) :
    s.readAddrs = [s.pc] := by
  have hFetch : s.fetchOpcode = .ok ir := by rw [fetchOpcode_eq, h0]
  simp only [State.readAddrs, hFetch, recognise_eq_none.2 hn]

/-- The only fault with cause UnsupportedOpcode is that of a byte at `pc` that is none of the eight. -/
theorem notMem_opcodes_of_cause_unsupportedOpcode {s t : State} {ir : Byte} (h : step s = .next t)
    (hf : t.runState = .faulted) (hc : t.fault.cause = .unsupportedOpcode) (h0 : s.byteAt? 0 = some ir) :
    ir ∉ s.cfg.opcodes := by
  rcases step_faulted_cases h hf with ⟨r, hF, rfl⟩ | ⟨op, a, b, operand, -, -, rfl⟩
  · cases hF with
    | unsupportedOpcode ir' h0' hn =>
      cases h0.symm.trans h0'
      exact hn
    | opcodeFetch | operandA | operandB => cases hc
  · cases hc

/-- Settles O19: the fetch faults on a byte that is none of the eight and drives one address; no other fault has that
cause. -/
theorem unsupportedOpcodeRule : Obligations.UnsupportedOpcodeRule := by
  refine fun s ir hs h0 => ⟨fun hn => ⟨step_of_fetchFault hs (.unsupportedOpcode ir h0 hn), ?_⟩,
    fun hmem t h hf hc => notMem_opcodes_of_cause_unsupportedOpcode h hf hc h0 hmem⟩
  rw [fetchAddrs_running hs.2, State.readAddrs_of_notMem h0 hn]
  rfl

/-! ### Decoding the bytes at `pc` -/

theorem State.byteAt?_eq_none {s : State} {k : Nat} : s.byteAt? k = none ↔ s.cfg.memCap ≤ s.pc.toNat + k := by
  simp [State.byteAt?]

/-- Past an address that does not exist none exists. -/
theorem State.byteAt?_eq_none_of_le {s : State} {k m : Nat} (h : s.byteAt? k = none) (hkm : k ≤ m) :
    s.byteAt? m = none := by
  rw [State.byteAt?_eq_none] at h ⊢
  omega

theorem State.bytesAtPc_eq (s : State) :
    s.bytesAtPc = (s.byteAt? 0).toList ++ ((s.byteAt? 1).toList ++ (s.byteAt? 2).toList) := by
  have hRange : List.range 3 = [0, 1, 2] := rfl
  by_cases h0 : s.pc.toNat < s.cfg.memCap <;> by_cases h1 : s.pc.toNat + 1 < s.cfg.memCap <;>
    by_cases h2 : s.pc.toNat + 2 < s.cfg.memCap <;> simp [State.bytesAtPc, State.byteAt?, hRange, h0, h1, h2]

/-- With the byte of an opcode at `pc`, the operands are decoded from the two places after it. -/
theorem State.decode_bytesAtPc_of_byteOf {s : State} {op : Opcode} (hnd : s.cfg.opcodes.Nodup)
    (h0 : s.byteAt? 0 = some (s.cfg.byteOf op)) :
    decode s.cfg s.bytesAtPc =
      decodeOperands (s.cfg.byteOf op) op op.format ((s.byteAt? 1).toList ++ (s.byteAt? 2).toList) := by
  simp only [State.bytesAtPc_eq, h0, Option.toList_some, List.singleton_append, decode, recognise_byteOf hnd]

/-- Where the bytes of an instruction are there, they decode to it. -/
theorem State.Holds.decode_bytesAtPc {s : State} {op : Opcode} {a b : Byte} (hH : s.Holds op a b)
    (hnd : s.cfg.opcodes.Nodup) : ∃ rest, decode s.cfg s.bytesAtPc = .ok (assemble op a b, rest) := by
  obtain ⟨h0, h1, h2⟩ := hH
  rw [State.decode_bytesAtPc_of_byteOf hnd h0]
  cases op with
  | hlt => exact ⟨_, rfl⟩
  | prn | jmp | jeq | jne =>
    rw [h1 (by decide)]
    exact ⟨_, rfl⟩
  | ldi | mul | cmp =>
    rw [h1 (by decide), h2 rfl]
    exact ⟨_, rfl⟩

/-- Where the fetch faults, the bytes decode to no instruction. -/
theorem FetchFault.decode_bytesAtPc {s : State} {r : Raise} (hF : FetchFault s r) (hnd : s.cfg.opcodes.Nodup) :
    ∃ e, decode s.cfg s.bytesAtPc = .error e := by
  cases hF with
  | opcodeFetch h0 =>
    rw [State.bytesAtPc_eq, h0, State.byteAt?_eq_none_of_le h0 (by decide : 0 ≤ 1),
      State.byteAt?_eq_none_of_le h0 (by decide : 0 ≤ 2)]
    exact ⟨_, rfl⟩
  | unsupportedOpcode ir h0 hn =>
    refine ⟨.unsupportedOpcode ir, ?_⟩
    simp only [State.bytesAtPc_eq, h0, Option.toList_some, List.singleton_append, decode, recognise_eq_none.2 hn]
  | operandA op h0 hn h1 =>
    rw [State.decode_bytesAtPc_of_byteOf hnd h0, h1, State.byteAt?_eq_none_of_le h1 (by decide : 1 ≤ 2)]
    cases op with
    | hlt => exact absurd hn (by decide)
    | ldi | prn | mul | cmp | jmp | jeq | jne => exact ⟨_, rfl⟩
  | operandB op a h0 hn h1 h2 =>
    rw [State.decode_bytesAtPc_of_byteOf hnd h0, h1, h2]
    cases op with
    | hlt | prn | jmp | jeq | jne => exact absurd hn (by decide)
    | ldi | mul | cmp => exact ⟨_, rfl⟩

/-- The bytes at `pc` decode only to an instruction whose bytes are there. -/
theorem holds_of_decode_bytesAtPc {s : State} {i : Instr} {rest : List Byte} (hl : s.cfg.Legal)
    (h : decode s.cfg s.bytesAtPc = .ok (i, rest)) : ∃ op a b, s.Holds op a b ∧ i = assemble op a b := by
  have hnd : s.cfg.opcodes.Nodup := hl.2.2
  rcases fetchInstr_cases hl with ⟨r, -, hF⟩ | ⟨op, a, b, -, hH⟩
  · obtain ⟨e, he⟩ := hF.decode_bytesAtPc hnd
    cases h.symm.trans he
  · obtain ⟨rest', hd⟩ := hH.decode_bytesAtPc hnd
    cases h.symm.trans hd
    exact ⟨op, a, b, hH, rfl⟩

/-! ### OutOfRangeAccess -/

/-- The register index checks stop exactly on the instructions that are not well formed (R52, R74). -/
theorem badOperand_eq_none_iff {i : Instr} : badOperand i = none ↔ i.wellFormed = true := by
  cases i with
  | hlt => exact ⟨fun _ => rfl, fun _ => rfl⟩
  | ldi a _ | prn a | jmp a | jeq a | jne a => simp [badOperand, Instr.wellFormed]
  | mul a b | cmp a b =>
    by_cases ha : 8 ≤ a.toNat
    · simp [badOperand, Instr.wellFormed, ha]
    · simp [badOperand, Instr.wellFormed, ha, Nat.not_le.1 ha]

theorem nOps_of_control_aReg {op : Opcode} (h : op.control.aReg = true) : 1 ≤ op.nOps := by
  cases op with
  | hlt => cases h
  | ldi | prn | mul | cmp | jmp | jeq | jne => decide

/-- An instruction whose operand B is a register has two operands, and operand A is a register too. -/
theorem nOps_of_control_bReg {op : Opcode} (h : op.control.bReg = true) : op.nOps = 2 ∧ op.control.aReg = true := by
  cases op with
  | mul | cmp => decide
  | ldi | prn | jmp | jeq | jne | hlt => cases h

/-- The byte in memory the register index checks stop on: operand A where it is 8 or more, and else operand B. -/
theorem State.Holds.badOperand_cases {s : State} {op : Opcode} {a b operand : Byte} (hH : s.Holds op a b)
    (h : badOperand (assemble op a b) = some operand) :
    s.byteAt? 1 = some a ∧
      (8 ≤ a.toNat ∧ operand = a ∨ a.toNat < 8 ∧ s.byteAt? 2 = some b ∧ 8 ≤ b.toNat ∧ operand = b) := by
  obtain ⟨-, h1, h2⟩ := hH
  rw [badOperand_assemble] at h
  split at h
  next hA =>
    cases h
    exact ⟨h1 (nOps_of_control_aReg hA.1), .inl ⟨hA.2, rfl⟩⟩
  next hA =>
    split at h
    next hB =>
      cases h
      obtain ⟨hTwo, hAReg⟩ := nOps_of_control_bReg hB.1
      exact ⟨h1 (by omega), .inr ⟨Nat.not_le.1 fun ha => hA ⟨hAReg, ha⟩, h2 hTwo, hB.2, rfl⟩⟩
    next => cases h

/-- The first operand address that does not exist is MEM_CAP, and the fetch unit's sum does not wrap there. -/
theorem operandAddr_of_first_missing {s : State} {k : Nat} {b : Byte} (hl : s.cfg.Legal) (hk : k + 1 ≤ 2)
    (hPrev : s.byteAt? k = some b) (hNone : s.byteAt? (k + 1) = none) :
    (s.operandAddr (k + 1)).toNat = s.pc.toNat + (k + 1) ∧ (s.operandAddr (k + 1)).toNat = s.cfg.memCap := by
  have hlt : s.pc.toNat + k < s.cfg.memCap := by
    rw [← Nat.not_le, ← State.byteAt?_eq_none, hPrev]
    exact Option.some_ne_none b
  rw [State.byteAt?_eq_none] at hNone
  rw [operandAddr_toNat hl (by omega) hk]
  omega

/-- An operand the instruction has, but memory has not, faults the fetch. -/
theorem exists_operandFetch_of_missing {s : State} {op : Opcode} {k : Nat} (h0 : s.byteAt? 0 = some (s.cfg.byteOf op))
    (hk : 1 ≤ k) (hkn : k ≤ op.nOps) (hNone : s.byteAt? k = none) :
    ∃ addr, FetchFault s (.operandFetch (s.cfg.byteOf op) addr) := by
  have hTwo := nOps_le_two op
  obtain rfl | rfl : k = 1 ∨ k = 2 := by omega
  · exact ⟨_, .operandA op h0 hkn hNone⟩
  · cases h1 : s.byteAt? 1 with
    | none => exact ⟨_, .operandA op h0 (by omega) h1⟩
    | some a => exact ⟨_, .operandB op a h0 (by omega) h1 hNone⟩

/-- An instruction at `pc` that is not well formed faults on its register index. -/
theorem exists_step_regIndex_of_not_wellFormed {s : State} {i : Instr} {rest : List Byte} (hs : s.Ready)
    (hd : decode s.cfg s.bytesAtPc = .ok (i, rest)) (hw : i.wellFormed = false) :
    ∃ ir operand, step s = .next (s.takeFault (.regIndex ir operand)) := by
  obtain ⟨op, a, b, hH, rfl⟩ := holds_of_decode_bytesAtPc hs.1 hd
  cases hb : badOperand (assemble op a b) with
  | none =>
    rw [badOperand_eq_none_iff.1 hb] at hw
    cases hw
  | some operand => exact ⟨_, operand, (step_of_holds hs hH).trans (exec_of_badOperand s hb)⟩

/-- What the record of an OutOfRangeAccess holds, for each of its three conditions (R122). -/
def State.OutOfRangeRecord (s : State) (f : FaultRecord) : Prop :=
  (f.sub = .opcodeFetch ∧ s.byteAt? 0 = none ∧ f.opcode = 0 ∧ f.info = s.pc) ∨
  (∃ op k, s.byteAt? 0 = some (s.cfg.byteOf op) ∧ 1 ≤ k ∧ k ≤ op.nOps ∧ s.byteAt? k = none ∧
    f.sub = .operandFetch ∧ f.opcode = s.cfg.byteOf op ∧ f.info.toNat = s.pc.toNat + k ∧
    f.info.toNat = s.cfg.memCap) ∨
  ∃ i rest, decode s.cfg s.bytesAtPc = .ok (i, rest) ∧ i.wellFormed = false ∧ f.sub = .regIndex ∧
    f.opcode = s.cfg.byteOf i.opcode ∧
    ∃ a, s.byteAt? 1 = some a ∧
      (8 ≤ a.toNat ∧ f.info = a.setWidth 9 ∨
        a.toNat < 8 ∧ ∃ b, s.byteAt? 2 = some b ∧ 8 ≤ b.toNat ∧ f.info = b.setWidth 9)

/-- A fetch that faults with that cause leaves the record of a missing opcode byte or of a missing operand byte. -/
theorem FetchFault.outOfRangeRecord {s : State} {r : Raise} (hF : FetchFault s r) (hl : s.cfg.Legal)
    (hc : (r.record s.pc).cause = .outOfRangeAccess) : s.OutOfRangeRecord (r.record s.pc) := by
  cases hF with
  | opcodeFetch h0 => exact .inl ⟨rfl, h0, rfl, rfl⟩
  | unsupportedOpcode => cases hc
  | operandA op h0 hn h1 =>
    exact .inr (.inl ⟨op, 1, h0, le_rfl, hn, h1, rfl, rfl, operandAddr_of_first_missing hl (by decide) h0 h1⟩)
  | operandB op a h0 hn h1 h2 =>
    exact .inr (.inl ⟨op, 2, h0, by decide, hn.ge, h2, rfl, rfl, operandAddr_of_first_missing hl (by decide) h1 h2⟩)

/-- A register operand that names no register leaves the record of a bad index. -/
theorem State.Holds.outOfRangeRecord {s : State} {op : Opcode} {a b operand : Byte} (hH : s.Holds op a b)
    (hnd : s.cfg.opcodes.Nodup) (hb : badOperand (assemble op a b) = some operand) :
    s.OutOfRangeRecord ((Raise.regIndex (s.cfg.byteOf op) operand).record s.pc) := by
  obtain ⟨rest, hd⟩ := hH.decode_bytesAtPc hnd
  have hw : (assemble op a b).wellFormed = false := by
    rw [← Bool.not_eq_true, ← badOperand_eq_none_iff, hb]
    exact Option.some_ne_none operand
  have hOpc : s.cfg.byteOf op = s.cfg.byteOf (assemble op a b).opcode := by rw [opcode_assemble]
  refine .inr (.inr ⟨_, rest, hd, hw, rfl, hOpc, a, ?_⟩)
  obtain ⟨h1, ⟨ha, rfl⟩ | ⟨ha, h2, hb8, rfl⟩⟩ := hH.badOperand_cases hb
  · exact ⟨h1, .inl ⟨ha, rfl⟩⟩
  · exact ⟨h1, .inr ⟨ha, _, h2, hb8, rfl⟩⟩

/-- What a step that faults with that cause records: `fault_pc` is `pc`, and the other fields are those of its
condition. -/
theorem outOfRangeRecord_of_step {s t : State} (h : step s = .next t) (hf : t.runState = .faulted)
    (hc : t.fault.cause = .outOfRangeAccess) : t.fault.pc = s.pc ∧ s.OutOfRangeRecord t.fault := by
  obtain ⟨⟨hl, -⟩, -⟩ := step_cases h
  rcases step_faulted_cases h hf with ⟨r, hF, rfl⟩ | ⟨op, a, b, operand, hH, hb, rfl⟩
  · exact ⟨r.record_pc s.pc, hF.outOfRangeRecord hl hc⟩
  · exact ⟨rfl, hH.outOfRangeRecord hl.2.2 hb⟩

/-- Settles O23: each condition faults the step with that cause, by its own check; and a step that faults with that
cause took the fault of one of the three, whose record is that check's. -/
theorem outOfRangeAccessRule : Obligations.OutOfRangeAccessRule := by
  intro s t h
  obtain ⟨hs, -⟩ := step_cases h
  have hRecord := outOfRangeRecord_of_step h
  refine ⟨⟨fun ⟨hf, hc⟩ => ?_, fun hCond => ?_⟩, hRecord⟩
  · obtain ⟨-, hOpcode | hOperand | hIndex⟩ := hRecord hf hc
    · obtain ⟨-, h0, -⟩ := hOpcode
      exact .inl h0
    · obtain ⟨op, k, h0, hk, hkn, hNone, -⟩ := hOperand
      exact .inr (.inl ⟨op, k, h0, hk, hkn, hNone⟩)
    · obtain ⟨i, rest, hd, hw, -⟩ := hIndex
      exact .inr (.inr ⟨i, rest, hd, hw⟩)
  · rcases hCond with h0 | ⟨op, k, h0, hk, hkn, hNone⟩ | ⟨i, rest, hd, hw⟩
    · cases h.symm.trans (step_of_fetchFault hs (.opcodeFetch h0))
      exact ⟨rfl, rfl⟩
    · obtain ⟨addr, hF⟩ := exists_operandFetch_of_missing h0 hk hkn hNone
      cases h.symm.trans (step_of_fetchFault hs hF)
      exact ⟨rfl, rfl⟩
    · obtain ⟨ir, operand, hstep⟩ := exists_step_regIndex_of_not_wellFormed hs hd hw
      cases h.symm.trans hstep
      exact ⟨rfl, rfl⟩

end Sys2Proof.Machine
end

section
/-! Loading an image and the launch state (70_reset_and_hazards.md R142, R143), and the ends of a run (R146). -/

namespace Sys2Proof.Machine

/-! ### Loading an image -/

theorem loadBytes_cons (cap a : Nat) (b : Byte) (bs : List Byte) (m : Memory) :
    loadBytes cap a (b :: bs) m = if a < cap then loadBytes cap (a + 1) bs (m.write a b) else none := by
  split
  next h => simp only [loadBytes, memWrite_of_lt m b.toNat h, BitVec.ofNat_toNat, BitVec.setWidth_eq]
  next h => simp only [loadBytes, memWrite_of_le m b.toNat (Nat.not_lt.1 h)]

/-- An image of at least one byte is loaded by writing its first byte, to a cell that exists, and loading the others. -/
theorem loadBytes_cons_eq_some {cap a : Nat} {b : Byte} {bs : List Byte} {m m' : Memory} :
    loadBytes cap a (b :: bs) m = some m' ↔ a < cap ∧ loadBytes cap (a + 1) bs (m.write a b) = some m' := by
  simp [loadBytes_cons]

/-- Loading fails exactly if the image reaches past the last cell. -/
theorem loadBytes_eq_none_iff {cap a : Nat} {bs : List Byte} {m : Memory} (ha : a ≤ cap) :
    loadBytes cap a bs m = none ↔ cap < a + bs.length := by
  induction bs generalizing a m with
  | nil => simp [loadBytes, ha]
  | cons b bs ih =>
    rw [loadBytes_cons, List.length_cons]
    split
    next h => rw [ih h, Nat.succ_add_eq_add_succ]
    next h => exact iff_of_true rfl (by omega)

/-- Loading changes no cell outside the image's. -/
theorem loadBytes_read_outside {cap a n : Nat} {bs : List Byte} {m m' : Memory} (h : loadBytes cap a bs m = some m')
    (hn : n < a ∨ a + bs.length ≤ n) : m'.read n = m.read n := by
  induction bs generalizing a m with
  | nil => cases h; rfl
  | cons b bs ih =>
    rw [List.length_cons] at hn
    obtain ⟨-, hRest⟩ := loadBytes_cons_eq_some.1 h
    rw [ih hRest (by omega), Memory.read_write_other b (by omega)]

/-- The byte at place `n` of the image is in the cell `n` places after the first. -/
theorem loadBytes_read_inside {cap a n : Nat} {bs : List Byte} {m m' : Memory} (hm : m.wf)
    (h : loadBytes cap a bs m = some m') (hn : n < bs.length) : m'.read (a + n) = bs[n] := by
  induction bs generalizing a n m with
  | nil => cases hn
  | cons b bs ih =>
    obtain ⟨-, hRest⟩ := loadBytes_cons_eq_some.1 h
    cases n with
    | zero =>
      rw [Nat.add_zero, loadBytes_read_outside hRest (.inl a.lt_succ_self), Memory.read_write_same a b hm]
      rfl
    | succ n =>
      rw [← Nat.succ_add_eq_add_succ, List.getElem_cons_succ]
      exact ih (Memory.write_wf a b hm) hRest (Nat.lt_of_succ_lt_succ hn)

/-! ### The launch state -/

/-- The reset state at the given parameters, with the given memory. -/
def State.loaded (cfg : Config) (m : Memory) : State := { State.reset with cfg := cfg, mem := m }

theorem launchState_eq_map (cfg : Config) (image : List Byte) :
    launchState cfg image = (loadBytes cfg.memCap 0 image []).map (State.loaded cfg) := by
  unfold launchState
  cases loadBytes cfg.memCap 0 image [] <;> rfl

/-- Only an image longer than memory gives no launch state (R143 P5). -/
theorem launchState_eq_none_iff {cfg : Config} {image : List Byte} :
    launchState cfg image = none ↔ cfg.memCap < image.length := by
  rw [launchState_eq_map, Option.map_eq_none_iff, loadBytes_eq_none_iff (Nat.zero_le _), Nat.zero_add]

/-- The reset state with an image loaded meets P1 to P6: the fields but memory are those of reset, and memory holds the
image and zeros. -/
theorem launchPremises_loaded {cfg : Config} {image : List Byte} {m : Memory} (hl : cfg.Legal)
    (hfit : image.length ≤ cfg.memCap) (hm : loadBytes cfg.memCap 0 image [] = some m) :
    LaunchPremises image (State.loaded cfg m) where
  p1_regs := State.readReg_reset
  p1_pc := rfl
  p1_flags := rfl
  p2_running := rfl
  p2_noFault := rfl
  p3_out := rfl
  p4_image n hn := by
    have hRead := loadBytes_read_inside Memory.wf_nil hm hn
    rwa [Nat.zero_add] at hRead
  p4_zero n hn := loadBytes_read_outside hm (.inr (by omega))
  p5_fits := hfit
  p6_legal := hl

/-- With no image loaded the byte at `pc` is 0, so the first step faults where 0 is no opcode byte (R143). -/
theorem step_loaded_nil {cfg : Config} (hl : cfg.Legal) (h0 : 0 ∉ cfg.opcodes) :
    step (State.loaded cfg []) = .next ((State.loaded cfg []).takeFault (.unsupportedOpcode 0)) :=
  step_of_fetchFault ⟨hl, rfl⟩ (.unsupportedOpcode 0 (State.byteAt?_of_lt hl.1) h0)

/-- Settles O8: loading succeeds exactly if the image fits (`launchState_eq_none_iff`), what it leaves in each cell
(`launchPremises_loaded`), and the first step with no image (`step_loaded_nil`). -/
theorem launchStatesMeetThePremises : Obligations.LaunchStatesMeetThePremises := by
  refine fun cfg image hl => ⟨fun hfit => ?_, launchState_eq_none_iff.2, fun h0 => ⟨_, rfl, step_loaded_nil hl h0⟩⟩
  rw [launchState_eq_map]
  cases hm : loadBytes cfg.memCap 0 image [] with
  | none =>
    rw [loadBytes_eq_none_iff (Nat.zero_le _)] at hm
    omega
  | some m => exact ⟨State.loaded cfg m, rfl, rfl, launchPremises_loaded hl hfit hm⟩

/-! ### The ends of a run -/

/-- Only the step of an HLT ends HALTED. -/
theorem byteAt?_zero_of_step_halted {s t : State} (h : step s = .next t) (hh : t.runState = .halted) :
    s.byteAt? 0 = some s.cfg.opcHlt := by
  obtain ⟨⟨-, hr⟩, ⟨r, -, rfl⟩ | ⟨op, a, b, ⟨h0, -⟩, he⟩⟩ := step_cases h
  · cases hh
  · rcases exec_cases he with hE | ⟨operand, -, -, -, rfl⟩
    · rcases hE.runState_cases with hSame | ⟨hi, -⟩
      · rw [hh, hr] at hSame
        cases hSame
      · have hop : op = .hlt := by rw [← opcode_assemble op a b, hi]; rfl
        rwa [hop] at h0
    · cases hh

theorem State.ended_iff {s : State} : s.ended = true ↔ s.runState = .halted ∨ s.runState = .faulted := by
  unfold State.ended
  cases s.runState <;> decide

/-- Settles O56: an HLT halts (`hltRule`) and no other instruction does (`byteAt?_zero_of_step_halted`); a step that ends
FAULTED took a fault (`step_faulted_cases`); and there is no run state but these two and RUNNING. -/
theorem haltsExactlyOnHlt : Obligations.HaltsExactlyOnHlt := by
  refine fun s t h => ⟨⟨byteAt?_zero_of_step_halted h, fun h0 => ?_⟩, ⟨fun hf => ?_, ?_⟩, State.ended_iff⟩
  · obtain ⟨hs, -⟩ := step_cases h
    obtain ⟨-, hRule⟩ := hltRule
    obtain ⟨-, hHalts⟩ := hRule s hs
    obtain ⟨hstep, -⟩ := hHalts h0
    cases h.symm.trans hstep
    rfl
  · rcases step_faulted_cases h hf with ⟨r, -, ht⟩ | ⟨op, a, b, operand, -, -, ht⟩
    · exact ⟨r, ht⟩
    · exact ⟨_, ht⟩
  · rintro ⟨r, rfl⟩
    exact s.takeFault_runState r

end Sys2Proof.Machine
end

section
/-! The encoder and the decoder (30_encoding.md R50 to R59, 20_memory.md R35). -/

namespace Sys2Proof

/-! ### The operand bytes of an instruction -/

/-- The bytes of an instruction after its opcode byte, in address order (R50). -/
def Instr.operands : Instr → List Byte
  | .ldi a imm => [a, imm]
  | .mul a b | .cmp a b => [a, b]
  | .prn a | .jmp a | .jeq a | .jne a => [a]
  | .hlt => []

theorem encode_eq_cons (c : Config) (i : Instr) : encode c i = c.byteOf i.opcode :: i.operands := by
  cases i <;> rfl

theorem operands_assemble (op : Opcode) (a b : Byte) : (assemble op a b).operands = [a, b].take op.nOps := by
  cases op <;> rfl

/-! ### Decoding operands -/

theorem decodeOperands_operands (ir : Byte) (i : Instr) (rest : List Byte) :
    decodeOperands ir i.opcode i.opcode.format (i.operands ++ rest) = .ok (i, rest) := by
  cases i <;> rfl

/-- An opcode takes as many bytes as its format has operands, and is assembled with them. -/
theorem decodeOperands_eq_ok {ir : Byte} {op : Opcode} {f : Format} {bytes rest : List Byte} {i : Instr}
    (h : decodeOperands ir op f bytes = .ok (i, rest)) :
    ∃ a b, i = assemble op a b ∧ bytes = [a, b].take f.nOps ++ rest := by
  fun_cases decodeOperands ir op f bytes <;> cases h
  case case1 => exact ⟨0, 0, rfl, rfl⟩
  case case3 a => exact ⟨a, 0, rfl, rfl⟩
  case case6 a b => exact ⟨a, b, rfl, rfl⟩
  case case9 a b => exact ⟨a, b, rfl, rfl⟩

/-- Operand bytes can be missing, but an opcode that is one of the eight is not unsupported. -/
theorem decodeOperands_ne_unsupportedOpcode (ir b : Byte) (op : Opcode) (f : Format) (bytes : List Byte) :
    decodeOperands ir op f bytes ≠ .error (.unsupportedOpcode b) := by
  fun_cases decodeOperands ir op f bytes <;> nofun

/-! ### Decoding and encoding -/

theorem decode_encode_append {c : Config} (h : c.opcodes.Nodup) (i : Instr) (rest : List Byte) :
    decode c (encode c i ++ rest) = .ok (i, rest) := by
  simp only [encode_eq_cons, List.cons_append, decode, Machine.recognise_byteOf h, decodeOperands_operands]

theorem decodeMany_flatMap_encode {c : Config} (h : c.opcodes.Nodup) (is : List Instr) (rest : List Byte) :
    decodeMany c is.length (is.flatMap (encode c) ++ rest) = .ok is := by
  induction is with
  | nil => rfl
  | cons i is ih =>
    simp only [List.length_cons, List.flatMap_cons, List.append_assoc, decodeMany, decode_encode_append h, ih]

/-- Settles O1: the opcode byte is recognized and the operands are its own (`decode_encode_append`), and for a sequence by
induction on it. -/
theorem decodeEncodeRoundTrip : Obligations.DecodeEncodeRoundTrip :=
  fun _ ⟨_, _, hnd⟩ => ⟨decode_encode_append hnd, decodeMany_flatMap_encode hnd⟩

/-- Settles O2: the first byte is that of the opcode (`byteOf_of_recognise`), and the bytes taken after it are the operands
(`decodeOperands_eq_ok`). -/
theorem decodedBytesAreTheEncoding : Obligations.DecodedBytesAreTheEncoding := by
  intro c i bytes rest h
  cases bytes with
  | nil => cases h
  | cons ir bytes =>
    simp only [decode] at h
    cases hr : recognise c ir with
    | none => rw [hr] at h; cases h
    | some op =>
      rw [hr] at h
      obtain ⟨a, b, rfl, rfl⟩ := decodeOperands_eq_ok h
      rw [encode_eq_cons, Machine.opcode_assemble, operands_assemble, Machine.byteOf_of_recognise hr]
      rfl

/-- A first byte is unsupported exactly if it is not recognized, whatever follows it. -/
theorem decode_cons_eq_unsupportedOpcode_iff {c : Config} {b : Byte} {rest : List Byte} :
    decode c (b :: rest) = .error (.unsupportedOpcode b) ↔ recognise c b = none := by
  simp only [decode]
  cases recognise c b with
  | none => exact iff_of_true rfl rfl
  | some op => exact iff_of_false (decodeOperands_ne_unsupportedOpcode b b op op.format rest) nofun

/-- The byte values that are recognized are those of the eight opcode bytes. -/
theorem filter_recognised_perm {c : Config} (h : c.opcodes.Nodup) :
    ((List.range 256).filter fun n => ¬ (recognise c (BitVec.ofNat 8 n)).isNone).Perm (c.opcodes.map BitVec.toNat) := by
  refine (List.perm_ext_iff_of_nodup (List.nodup_range.filter _)
    (h.map fun _ _ => BitVec.eq_of_toNat_eq)).2 fun n => ?_
  simp only [List.mem_filter, List.mem_range, List.mem_map, Option.isNone_iff_eq_none, Machine.recognise_eq_none,
    not_not, decide_eq_true_eq]
  constructor
  · rintro ⟨hn, hb⟩
    exact ⟨_, hb, Nat.mod_eq_of_lt hn⟩
  · rintro ⟨b, hb, rfl⟩
    exact ⟨b.isLt, by rwa [BitVec.ofNat_toNat, BitVec.setWidth_eq]⟩

/-- So 248 byte values are unsupported, in every legal configuration (R57). -/
theorem length_filter_unrecognised {c : Config} (h : c.opcodes.Nodup) :
    ((List.range 256).filter fun n => (recognise c (BitVec.ofNat 8 n)).isNone).length = 248 := by
  have hEight := (filter_recognised_perm h).length_eq
  have hAll := List.length_eq_countP_add_countP (fun n => (recognise c (BitVec.ofNat 8 n)).isNone) (l := List.range 256)
  rw [List.countP_eq_length_filter, List.countP_eq_length_filter, hEight, List.length_range, List.length_map] at hAll
  exact Nat.add_right_cancel hAll.symm

/-- Settles O4: the bytes that are not recognized are those that are none of the eight (`recognise_eq_none`), and they are
counted (`length_filter_unrecognised`). -/
theorem otherBytesAreUnsupported : Obligations.OtherBytesAreUnsupported :=
  ⟨fun _ _ _ => Machine.recognise_eq_none.symm.trans decode_cons_eq_unsupportedOpcode_iff.symm,
    length_filter_unrecognised (by decide)⟩

/-- Settles O3: each word is decoded. -/
theorem writtenWordsDecode : Obligations.WrittenWordsDecode := by
  unfold Obligations.WrittenWordsDecode
  decide

end Sys2Proof
end

section
/-! The step the six sub-blocks make (40_fetch_decode_cycle.md R85) is `step`. -/

namespace Sys2Proof.Machine

/-! ### Fetch and checks -/

/-- The fetch unit assembles the latches, read as the decoder's `n_ops` says (R73). -/
theorem fetchOperands_eq_map_fetchLatches (s : State) (ir : Byte) (op : Opcode) :
    s.fetchOperands ir op = (fetchLatches s ir op.control.nOps).map fun (opA, opB) => assemble op opA opB := by
  unfold State.fetchOperands fetchLatches
  cases op with
  | hlt => rfl
  | prn | jmp | jeq | jne => cases s.fetchOperand ir 1 <;> rfl
  | ldi | mul | cmp => cases s.fetchOperand ir 1 <;> cases s.fetchOperand ir 2 <;> rfl

/-- The register file's check is that of the instruction (R74). -/
theorem indexFault_control (op : Opcode) (ir opA opB : Byte) :
    indexFault op.control ir opA opB = (badOperand (assemble op opA opB)).map (.regIndex ir) := by
  simp only [badOperand_assemble, indexFault, Bool.and_eq_true, decide_eq_true_eq]
  split
  · rfl
  · split <;> rfl

/-! ### ALU and commit -/

/-- The low three bits of a legal register operand are its register. -/
@[simp] theorem indexPort_regByte (r : RegIdx) : indexPort (regByte r) = r := by
  simp [indexPort, Nat.mod_eq_of_lt r.isLt]

/-- The multiplexer's address with a jump that is taken or not is where `jumpIf` goes (R77). -/
theorem State.jumpIf_eq_setPc (s : State) (taken : Bool) (r : RegIdx) :
    s.jumpIf taken r = s.setPc (nextPc false taken s.pc (pcAdder s.pc 1) (s.readReg r)) := by
  cases taken <;> rfl

/-- What the ALU and the commit make of an instruction that passed its checks is its effect. -/
theorem Effect.eq_commit {s t : State} {op : Opcode} {opA opB : Byte} (h : Effect s (assemble op opA opB) t)
    (ir : Byte) : ∃ alu, aluStage s op.control ir opA opB = .ok alu ∧ t = commit s op.control opA opB alu := by
  generalize hi : assemble op opA opB = i at h
  cases h <;> cases op <;> cases hi
  case ldi | prn | jmp =>
    refine ⟨none, rfl, ?_⟩
    simp only [commit, indexPort_regByte]
    rfl
  case jeq | jne =>
    refine ⟨none, rfl, ?_⟩
    simp only [commit, indexPort_regByte, State.jumpIf_eq_setPc]
    rfl
  case hlt => exact ⟨none, rfl, rfl⟩
  case mul ra rb =>
    refine ⟨some (.result (aluMul (s.readReg ra) (s.readReg rb))), ?_, ?_⟩
    · rw [aluStage, indexPort_regByte, indexPort_regByte]
      rfl
    · simp only [commit, indexPort_regByte]
      rfl
  case cmp ra rb =>
    refine ⟨some (.flags (compareFlags (s.readReg ra) (s.readReg rb))), ?_, rfl⟩
    rw [aluStage, indexPort_regByte, indexPort_regByte]
    rfl

/-! ### The step of the blocks -/

/-- How a step ends with what the blocks after the opcode fetch answer: the state committed, or the fault taken (R127). -/
def State.conclude (s : State) : Except Raise State → Result
  | .error r => .next (s.takeFault r)
  | .ok t => .next t

/-- For an opcode of the eight, the blocks after the opcode fetch make what `step` makes of the fetched instruction. -/
theorem conclude_datapathBody_control {s : State} {op : Opcode} {ir : Byte} (hir : s.cfg.byteOf op = ir) :
    s.conclude (datapathBody s op.control ir) = match s.fetchOperands ir op with
      | .error r => .next (s.takeFault r)
      | .ok i => exec i s := by
  have hLegal : op.control.illegal = false := by cases op <;> rfl
  simp only [datapathBody, hLegal, fetchOperands_eq_map_fetchLatches, indexFault_control]
  rcases fetchLatches s ir op.control.nOps with r | ⟨opA, opB⟩
  · rfl
  · simp only [Except.map]
    cases hb : badOperand (assemble op opA opB) with
    | some operand =>
      rw [exec_of_badOperand s hb, opcode_assemble, hir]
      rfl
    | none =>
      obtain ⟨t, ht, hE⟩ := exec_effect_of_badOperand_eq_none s hb
      obtain ⟨alu, hAlu, rfl⟩ := hE.eq_commit ir
      rw [ht]
      simp [hAlu, State.conclude]

/-- Settles O26: the two steps make the same tests and the same opcode fetch; what follows is
`conclude_datapathBody_control` for an opcode of the eight, and UnsupportedOpcode for any other byte. -/
theorem subBlocksMakeTheSameStep : Obligations.SubBlocksMakeTheSameStep := by
  intro s
  unfold datapathStep step
  split
  case isFalse => rfl
  case isTrue =>
    cases s.runState with
    | halted | faulted => rfl
    | running =>
      unfold State.fetchInstr
      cases s.fetchOpcode with
      | error r => rfl
      | ok ir =>
        cases hr : recognise s.cfg ir with
        | none => simp only [controlOf, hr]; rfl
        | some op =>
          simp only [controlOf, hr]
          exact conclude_datapathBody_control (byteOf_of_recognise hr)

end Sys2Proof.Machine
end

section
/-! What a step leaves in the flags, the PC and the configuration (10_state.md R13, 40_fetch_decode_cycle.md R78). -/

namespace Sys2Proof.Machine

/-! ### The configuration -/

@[simp] theorem State.jumpIf_cfg (s : State) (taken : Bool) (r : RegIdx) : (s.jumpIf taken r).cfg = s.cfg := by
  cases taken <;> rfl

theorem Effect.cfg_eq {i : Instr} {s t : State} (h : Effect s i t) : t.cfg = s.cfg := by
  cases h with
  | ldi | prn | mul | cmp | jmp | hlt => rfl
  | jeq | jne => exact State.jumpIf_cfg ..

theorem exec_cfg_eq {i : Instr} {s t : State} (h : exec i s = .next t) : t.cfg = s.cfg := by
  rcases exec_cases h with hE | ⟨operand, -, -, -, rfl⟩
  · exact hE.cfg_eq
  · exact s.takeFault_cfg _

theorem step_cfg_eq {s t : State} (h : step s = .next t) : t.cfg = s.cfg := by
  obtain ⟨-, ⟨r, -, rfl⟩ | ⟨op, a, b, -, he⟩⟩ := step_cases h
  · exact s.takeFault_cfg r
  · exact exec_cfg_eq he

/-! ### What a step can do, in terms of `Effect` -/

/-- Everything a step can do: a fault, which leaves all but `run_state` and the record, or the effect of an instruction
whose bytes are there. -/
theorem step_effect_cases {s t : State} (h : step s = .next t) :
    (t.runState = .faulted ∧ ∃ r, t = s.takeFault r) ∨ ∃ op a b, s.Holds op a b ∧ Effect s (assemble op a b) t := by
  obtain ⟨-, ⟨r, -, rfl⟩ | ⟨op, a, b, hH, he⟩⟩ := step_cases h
  · exact .inl ⟨rfl, r, rfl⟩
  · rcases exec_cases he with hE | ⟨operand, -, -, -, rfl⟩
    · exact .inr ⟨op, a, b, hH, hE⟩
    · exact .inl ⟨rfl, _, rfl⟩

/-! ### The flags -/

@[simp] theorem State.jumpIf_flags (s : State) (taken : Bool) (r : RegIdx) : (s.jumpIf taken r).flags = s.flags := by
  cases taken <;> rfl

/-- Only CMP writes flags, and it writes those of its comparison (R99). -/
theorem Effect.flags_cases {i : Instr} {s t : State} (h : Effect s i t) :
    i.opcode ≠ .cmp ∧ t.flags = s.flags ∨
      i.opcode = .cmp ∧ ∃ ra rb, t.flags = compareFlags (s.readReg ra) (s.readReg rb) := by
  cases h with
  | ldi | prn | mul | jmp | hlt => exact .inl ⟨nofun, rfl⟩
  | jeq | jne => exact .inl ⟨nofun, State.jumpIf_flags ..⟩
  | cmp ra rb => exact .inr ⟨rfl, ra, rb, rfl⟩

/-- In a legal configuration different opcodes have different bytes (R3). -/
theorem byteOf_injective {c : Config} (h : c.opcodes.Nodup) : Function.Injective c.byteOf := fun op op' hop =>
  Option.some.inj <| by rw [← recognise_byteOf h op, hop, recognise_byteOf h op']

/-- Settles O52: a fault leaves the flags, and of the effects that of CMP alone writes them (`Effect.flags_cases`), with one
flag set (`compareFlags_count`). -/
theorem onlyCompareWritesFlags : Obligations.OnlyCompareWritesFlags := by
  intro s t h
  obtain ⟨⟨⟨-, -, hnd⟩, -⟩, -⟩ := step_cases h
  rcases step_effect_cases h with ⟨hf, r, rfl⟩ | ⟨op, a, b, ⟨h0, -⟩, hE⟩
  · exact ⟨fun hne => absurd rfl hne, fun _ hnf => absurd hf hnf⟩
  · have hFlags := hE.flags_cases
    rw [opcode_assemble] at hFlags
    rcases hFlags with ⟨hop, hSame⟩ | ⟨rfl, ra, rb, hWritten⟩
    · refine ⟨fun hne => absurd hSame hne, fun h0' => absurd (byteOf_injective hnd ?_) hop⟩
      exact Option.some.inj (h0.symm.trans h0')
    · exact ⟨fun _ => h0, fun _ _ => by rw [hWritten, compareFlags_count]⟩

/-! ### The PC -/

/-- The address of the last byte of an instruction that is there exists. -/
theorem State.Holds.add_nOps_lt {s : State} {op : Opcode} {a b : Byte} (h : s.Holds op a b) :
    s.pc.toNat + op.nOps < s.cfg.memCap := by
  obtain ⟨h0, h1, h2⟩ := h
  have hLast : s.byteAt? op.nOps ≠ none := by
    have := nOps_le_two op
    obtain hn | hn | hn : op.nOps = 0 ∨ op.nOps = 1 ∨ op.nOps = 2 := by omega
    · simp [hn, h0]
    · simp [hn, h1 hn.ge]
    · simp [hn, h2 hn]
  rwa [ne_eq, State.byteAt?_eq_none, Nat.not_le] at hLast

/-- Where an instruction goes on: at the next, at its jump target, or, for HLT, nowhere. -/
theorem Effect.pc_cases {i : Instr} {s t : State} (h : Effect s i t) :
    (i ≠ .hlt ∧ t.pc = pcAdder s.pc i.opcode.nOps) ∨
      (∃ r, (i = .jmp (regByte r) ∨ i = .jeq (regByte r) ∨ i = .jne (regByte r)) ∧ t.pc = zext9 (s.readReg r)) ∨
      (i = .hlt ∧ t.pc = s.pc) := by
  cases h with
  | ldi | prn | mul | cmp => exact .inl ⟨nofun, rfl⟩
  | jmp r => exact .inr (.inl ⟨r, .inl rfl, rfl⟩)
  | jeq r =>
    cases s.flags.E with
    | false => exact .inl ⟨nofun, rfl⟩
    | true => exact .inr (.inl ⟨r, .inr (.inl rfl), rfl⟩)
  | jne r =>
    cases s.flags.E with
    | false => exact .inr (.inl ⟨r, .inr (.inr rfl), rfl⟩)
    | true => exact .inl ⟨nofun, rfl⟩
  | hlt => exact .inr (.inr ⟨rfl, rfl⟩)

/-- The PC after an instruction whose bytes are there, as an exact number: no sum wraps (R78). -/
theorem Effect.pc_toNat_cases {s t : State} {op : Opcode} {a b : Byte} (hE : Effect s (assemble op a b) t)
    (hl : s.cfg.Legal) (hH : s.Holds op a b) :
    (t.pc.toNat = s.pc.toNat + (assemble op a b).length ∧ t.pc.toNat ≤ s.cfg.memCap ∧ assemble op a b ≠ .hlt) ∨
      (∃ r, (assemble op a b = .jmp (regByte r) ∨ assemble op a b = .jeq (regByte r) ∨
        assemble op a b = .jne (regByte r)) ∧ t.pc.toNat = (s.readReg r).toNat) ∨
      (assemble op a b = .hlt ∧ t.pc = s.pc) := by
  have hLast := hH.add_nOps_lt
  obtain ⟨-, hCap, -⟩ := hl
  rcases hE.pc_cases with ⟨hNot, hpc⟩ | ⟨r, hJump, hpc⟩ | hHlt
  · have hNext := pcAdder_toNat (pc := s.pc) (by omega) (nOps_le_two op)
    rw [hpc, Instr.length, opcode_assemble, hNext]
    exact .inl ⟨rfl, hLast, hNot⟩
  · exact .inr (.inl ⟨r, hJump, by rw [hpc, zext9_toNat]⟩)
  · exact .inr (.inr hHlt)

/-- Settles O29: the instruction decoded is the one whose bytes are there, and its effect sets the PC
(`Effect.pc_toNat_cases`). -/
theorem pcNeverWraps : Obligations.PcNeverWraps := by
  intro s t i rest h hnf hd
  obtain ⟨hs, -⟩ := step_cases h
  obtain ⟨op, a, b, hH, rfl⟩ := holds_of_decode_bytesAtPc hs.1 hd
  rcases exec_cases ((step_of_holds hs hH).symm.trans h) with hE | ⟨operand, -, -, -, rfl⟩
  · exact hE.pc_toNat_cases hs.1 hH
  · exact absurd rfl hnf

end Sys2Proof.Machine
end

section
/-! L and G are read by no instruction (10_state.md R13, 42_alu.md R100). -/

namespace Sys2Proof.Machine

/-! ### One step -/

/-- The state with other values in L and G. -/
def State.withLG (s : State) (l g : Bool) : State := { s with flags := ⟨s.flags.E, l, g⟩ }

theorem State.sameButLG_withLG (s : State) (l g : Bool) : s.sameButLG (s.withLG l g) := rfl

theorem State.sameButLG_refl (s : State) : s.sameButLG s := rfl

theorem State.sameButLG.eq_withLG {s s' : State} (h : s.sameButLG s') : s' = s.withLG s'.flags.L s'.flags.G := h

theorem State.jumpIf_withLG (s : State) (l g taken : Bool) (r : RegIdx) :
    (s.withLG l g).jumpIf taken r = (s.jumpIf taken r).withLG l g := by
  cases taken <;> rfl

/-- CMP writes L and G, every other instruction leaves them, and none looks at them. -/
theorem Effect.withLG {i : Instr} {s t : State} (l g : Bool) (h : Effect s i t) :
    ∃ t', Effect (s.withLG l g) i t' ∧ t.sameButLG t' := by
  cases h with
  | cmp ra rb => exact ⟨_, .cmp ra rb, State.sameButLG_refl _⟩
  | ldi r imm => exact ⟨_, .ldi r imm, State.sameButLG_withLG _ l g⟩
  | prn r => exact ⟨_, .prn r, State.sameButLG_withLG _ l g⟩
  | mul ra rb => exact ⟨_, .mul ra rb, State.sameButLG_withLG _ l g⟩
  | jmp r => exact ⟨_, .jmp r, State.sameButLG_withLG _ l g⟩
  | jeq r => exact ⟨_, .jeq r, by rw [State.jumpIf_withLG]; exact State.sameButLG_withLG _ l g⟩
  | jne r => exact ⟨_, .jne r, by rw [State.jumpIf_withLG]; exact State.sameButLG_withLG _ l g⟩
  | hlt => exact ⟨_, .hlt, State.sameButLG_withLG _ l g⟩

theorem exec_withLG {i : Instr} {s t : State} (l g : Bool) (h : exec i s = .next t) :
    ∃ t', exec i (s.withLG l g) = .next t' ∧ t.sameButLG t' := by
  rcases exec_cases h with hE | ⟨operand, -, -, hb, rfl⟩
  · obtain ⟨t', hE', hSame⟩ := hE.withLG l g
    exact ⟨t', exec_of_effect hE', hSame⟩
  · exact ⟨_, exec_of_badOperand _ hb, State.sameButLG_withLG _ l g⟩

/-- The fetch does not look at the flags. -/
theorem State.fetchInstr_withLG (s : State) (l g : Bool) : (s.withLG l g).fetchInstr = s.fetchInstr := rfl

/-- From states that differ at most in L and G a step leads to such states. -/
theorem step_sameButLG {s s' t : State} (hSame : s.sameButLG s') (h : step s = .next t) :
    ∃ t', step s' = .next t' ∧ t.sameButLG t' := by
  obtain ⟨hs, -⟩ := step_cases h
  rw [hSame.eq_withLG, step_of_ready (s := s.withLG s'.flags.L s'.flags.G) hs, State.fetchInstr_withLG]
  rw [step_of_ready hs] at h
  cases hf : s.fetchInstr <;> rw [hf] at h
  case error r =>
    cases h
    exact ⟨_, rfl, State.sameButLG_withLG _ _ _⟩
  case ok i => exact exec_withLG _ _ h

/-! ### Runs -/

/-- A run of `k + 1` steps is a step and then a run of `k`. -/
theorem run_succ_eq_next_iff {M : Host.Core} {k : Nat} {s t : M.State} :
    M.run (k + 1) s = .next t ↔ ∃ u, M.step s = .next u ∧ M.run k u = .next t := by
  simp only [Host.Core.run]
  cases M.step s <;> simp

/-- Settles O53: by induction on the number of steps, each by `step_sameButLG`. -/
theorem lessAndGreaterAreNeverRead : Obligations.LessAndGreaterAreNeverRead := by
  intro k
  induction k with
  | zero =>
    intro s s' t hSame h
    cases h
    exact ⟨s', rfl, hSame⟩
  | succ k ih =>
    intro s s' t hSame h
    obtain ⟨u, hStep, hRun⟩ := run_succ_eq_next_iff.1 h
    obtain ⟨u', hStep', hSame'⟩ := step_sameButLG hSame hStep
    obtain ⟨t', hRun', hEnd⟩ := ih u u' t hSame' hRun
    exact ⟨t', run_succ_eq_next_iff.2 ⟨u', hStep', hRun'⟩, hEnd⟩

end Sys2Proof.Machine
end

section
/-! The invariant (10_state.md R13 and R15, 20_memory.md R30, 40_fetch_decode_cycle.md R78, 60_exceptions.md R120 and
R127): it holds at reset, every step keeps it, and so does every event. -/

namespace Sys2Proof.Machine

/-! ### The record of a fault -/

/-- A fetch that faults leaves a record whose fields fit together. -/
theorem FetchFault.record_sound {s : State} {r : Raise} (h : FetchFault s r) (hl : s.cfg.Legal) (hs : s.Inv) :
    (r.record s.pc).Sound s.cfg.memCap := by
  cases h with
  | opcodeFetch h0 =>
    have hpc := hs.pcBound
    obtain ⟨-, hCap, -⟩ := hl
    exact ⟨rfl, rfl, State.byteAt?_eq_none.1 h0, hpc.trans (by omega)⟩
  | unsupportedOpcode ir => exact zext9_toNat ir
  | operandA op h0 hn h1 => exact (operandAddr_of_first_missing hl (by decide) h0 h1).2
  | operandB op a h0 hn h1 h2 => exact (operandAddr_of_first_missing hl (by decide) h1 h2).2

/-- So does a register operand that names no register. -/
theorem regIndex_record_sound (cap : Nat) (pc : PcWord) (ir : Byte) {operand : Byte} (h : 8 ≤ operand.toNat) :
    ((Raise.regIndex ir operand).record pc).Sound cap := by
  change 8 ≤ (zext9 operand).toNat ∧ (zext9 operand).toNat ≤ 255
  have := operand.isLt
  rw [zext9_toNat]
  omega

/-- Every fault has a cause. -/
theorem Raise.record_cause_ne_none (r : Raise) (pc : PcWord) : (r.record pc).cause ≠ .none := by
  cases r <;> nofun

/-! ### One step -/

/-- Taking a fault keeps the invariant if the record's fields fit together. -/
theorem State.Inv.takeFault {s : State} (hs : s.Inv) {r : Raise} (hr : (r.record s.pc).Sound s.cfg.memCap) :
    (s.takeFault r).Inv where
  memWf := hs.memWf
  memBelow := hs.memBelow
  pcBound := hs.pcBound
  flagsOneHot := hs.flagsOneHot
  causeIffFaulted := iff_of_true (r.record_cause_ne_none s.pc) rfl
  faultPc _ := r.record_pc s.pc
  record := hr

theorem Effect.flags_count_le_one {i : Instr} {s t : State} (h : Effect s i t) (hs : s.flags.count ≤ 1) :
    t.flags.count ≤ 1 := by
  rcases h.flags_cases with ⟨-, hSame⟩ | ⟨-, ra, rb, hWritten⟩
  · rwa [hSame]
  · rw [hWritten, compareFlags_count]

/-- The effect of an instruction whose bytes are there keeps the invariant. -/
theorem State.Inv.effect {s t : State} {op : Opcode} {a b : Byte} (hs : s.Inv) (hReady : s.Ready)
    (hH : s.Holds op a b) (hE : Effect s (assemble op a b) t) : t.Inv := by
  obtain ⟨hl, hRunning⟩ := hReady
  have hNotFaulted := hE.runState_ne_faulted hRunning
  have hNoCause : s.fault.cause = .none := by
    by_contra hc
    have hFaulted := hs.causeIffFaulted.1 hc
    rw [hRunning] at hFaulted
    cases hFaulted
  refine ⟨?_, ?_, ?_, hE.flags_count_le_one hs.flagsOneHot, ?_, fun hf => absurd hf hNotFaulted, ?_⟩
  · rw [hE.mem_eq]
    exact hs.memWf
  · rw [hE.mem_eq, hE.cfg_eq]
    exact hs.memBelow
  · rw [hE.cfg_eq]
    rcases hE.pc_toNat_cases hl hH with ⟨-, hpc, -⟩ | ⟨r, -, hpc⟩ | ⟨-, hpc⟩
    · exact hpc.trans (le_max_left ..)
    · have := (s.readReg r).isLt
      omega
    · rw [hpc]
      exact hs.pcBound
  · rw [hE.fault_eq]
    exact iff_of_false (not_not.2 hNoCause) hNotFaulted
  · rw [hE.fault_eq, hE.cfg_eq]
    exact hs.record

/-- Settles O59: a fault of the fetch or of a register operand leaves a record that fits (`FetchFault.record_sound`,
`regIndex_record_sound`), and an instruction that passed its checks keeps the invariant (`State.Inv.effect`). -/
theorem everyStepKeepsTheInvariant : Obligations.EveryStepKeepsTheInvariant := by
  intro s t hs h
  obtain ⟨hReady, ⟨r, hF, rfl⟩ | ⟨op, a, b, hH, he⟩⟩ := step_cases h
  · exact hs.takeFault (hF.record_sound hReady.1 hs)
  · rcases exec_cases he with hE | ⟨operand, hOperand, -, -, rfl⟩
    · exact hs.effect hReady hH hE
    · exact hs.takeFault (regIndex_record_sound _ _ _ hOperand)

/-! ### Whatever the host does -/

/-- The reset state at any parameters meets the invariant. -/
theorem inv_reset (cfg : Config) : ({ State.reset with cfg := cfg } : State).Inv where
  memWf := Memory.wf_nil
  memBelow := nofun
  pcBound := Nat.zero_le _
  flagsOneHot := Nat.zero_le _
  causeIffFaulted := iff_of_false (not_not.2 rfl) nofun
  faultPc := nofun
  record := ⟨rfl, rfl, rfl⟩

/-- Settles O58: the invariant at any parameters (`inv_reset`), of which the default ones are legal. -/
theorem invariantHoldsAtReset : Obligations.InvariantHoldsAtReset := ⟨inv_reset Config.default, by decide⟩

/-- Other contents of memory, in canonical form and below the capacity, keep the invariant. -/
theorem State.Inv.withMem {s : State} (hs : s.Inv) {m : Memory} (hm : m.wf ∧ m.below s.cfg.memCap) :
    ({ s with mem := m } : State).Inv :=
  { hs with memWf := hm.1, memBelow := hm.2 }

/-- Everything an event that answers a next state can do. -/
theorem apply_cases {y z : System} {e : Event} (h : y.apply e = .next z) :
    (e = .reset ∧ z = ⟨.loading, y.core.applyReset⟩) ∨
      (∃ addr data m, e = .load addr data ∧ y.phase = .loading ∧
        memWrite y.core.cfg.memCap y.core.mem addr data = some m ∧ z = ⟨.loading, { y.core with mem := m }⟩) ∨
      (e = .launch ∧ y.phase = .loading ∧ y.core.cfg.Legal ∧ z = ⟨.launched, y.core⟩) ∨
      (e = .step ∧ y.phase = .launched ∧ ∃ t, step y.core = .next t ∧ z = ⟨.launched, t⟩) := by
  cases e <;> simp only [System.apply] at h
  case reset =>
    cases h
    exact .inl ⟨rfl, rfl⟩
  case load addr data =>
    split at h
    · cases h
    · split at h <;> cases h
      exact .inr (.inl ⟨addr, data, _, rfl, ‹_›, ‹_›, rfl⟩)
  case launch =>
    split at h
    · cases h
    · split at h <;> cases h
      exact .inr (.inr (.inl ⟨rfl, ‹_›, ‹_›, rfl⟩))
  case step =>
    split at h
    · cases h
    · split at h <;> cases h
      exact .inr (.inr (.inr ⟨rfl, ‹_›, _, ‹_›, rfl⟩))

/-- A sequence of events is its first event and then the others. -/
theorem applyAll_cons_eq_next_iff {y z : System} {e : Event} {es : List Event} :
    y.applyAll (e :: es) = .next z ↔ ∃ x, y.apply e = .next x ∧ x.applyAll es = .next z := by
  rw [System.applyAll]
  cases y.apply e <;> simp

/-- Every event keeps the invariant and the configuration. -/
theorem apply_keeps_inv {y z : System} {e : Event} (hy : y.core.Inv) (h : y.apply e = .next z) :
    z.core.Inv ∧ z.core.cfg = y.core.cfg := by
  rcases apply_cases h with ⟨-, rfl⟩ | ⟨addr, data, m, -, -, hWrite, rfl⟩ | ⟨-, -, -, rfl⟩ | ⟨-, -, t, hStep, rfl⟩
  · exact ⟨inv_reset _, rfl⟩
  · exact ⟨hy.withMem (memWrite_keeps hy.memWf hy.memBelow hWrite), rfl⟩
  · exact ⟨hy, rfl⟩
  · exact ⟨everyStepKeepsTheInvariant _ _ hy hStep, step_cfg_eq hStep⟩

theorem applyAll_keeps_inv {es : List Event} {y z : System} (hy : y.core.Inv) (h : y.applyAll es = .next z) :
    z.core.Inv ∧ z.core.cfg = y.core.cfg := by
  induction es generalizing y with
  | nil =>
    cases h
    exact ⟨hy, rfl⟩
  | cons e es ih =>
    obtain ⟨x, hFirst, hRest⟩ := applyAll_cons_eq_next_iff.1 h
    obtain ⟨hx, hCfg⟩ := apply_keeps_inv hy hFirst
    rw [← hCfg]
    exact ih hx hRest

/-- Settles O60: the invariant holds at reset (`inv_reset`), and every event keeps it (`applyAll_keeps_inv`). -/
theorem everyReachableStateKeepsTheInvariant : Obligations.EveryReachableStateKeepsTheInvariant :=
  fun cfg _ _ _ h => applyAll_keeps_inv (y := System.start cfg) (inv_reset cfg) h

/-- Settles O12: a write is refused in the launched phase; of the events, all but a reset are refused there or a step
(`apply_cases`), which keeps memory (`step_mem_eq`). -/
theorem memoryIsConstantFromLaunchToReset : Obligations.MemoryIsConstantFromLaunchToReset := by
  refine fun y hy => ⟨fun a v => by rw [System.apply, hy], fun es z hNoReset h => ?_⟩
  induction es generalizing y with
  | nil =>
    cases h
    exact ⟨hy, fun _ => rfl⟩
  | cons e es ih =>
    obtain ⟨x, hFirst, hRest⟩ := applyAll_cons_eq_next_iff.1 h
    rw [List.mem_cons, not_or] at hNoReset
    rcases apply_cases hFirst with ⟨rfl, -⟩ | ⟨addr, data, m, -, hLoading, -⟩ | ⟨-, hLoading, -⟩ | ⟨-, -, t, hStep, rfl⟩
    · exact absurd rfl hNoReset.1
    · rw [hy] at hLoading
      cases hLoading
    · rw [hy] at hLoading
      cases hLoading
    · have hLater := ih ⟨.launched, t⟩ rfl hNoReset.2 hRest
      rwa [step_mem_eq hStep] at hLater

/-- The host's writes of an image, one cell at a time, load it, and the other events follow (R142). -/
theorem applyAll_load {a : Nat} {image : List Byte} {core : State} {m : Memory} (es : List Event)
    (h : loadBytes core.cfg.memCap a image core.mem = some m) :
    System.applyAll ⟨.loading, core⟩
        ((List.range image.length).map (fun n => Event.load (a + n) (image.getD n 0).toNat) ++ es) =
      System.applyAll ⟨.loading, { core with mem := m }⟩ es := by
  induction image generalizing a core with
  | nil =>
    cases h
    rfl
  | cons b bs ih =>
    obtain ⟨ha, hRest⟩ := loadBytes_cons_eq_some.1 h
    have hNext := ih (a := a + 1) (core := { core with mem := core.mem.write a b }) hRest
    simp only [List.length_cons, List.range_succ_eq_map, List.map_cons, List.map_map, List.cons_append, System.applyAll,
      System.apply, Nat.add_zero, List.getD_cons_zero, memWrite_of_lt _ _ ha, BitVec.ofNat_toNat, BitVec.setWidth_eq]
    rw [← hNext]
    simp [Function.comp_def, Nat.add_assoc, Nat.add_comm 1]

/-- Settles O9: the writes load the image (`applyAll_load`), and the launch of a legal configuration is not refused. -/
theorem loadingThenLaunchReachesTheLaunchState : Obligations.LoadingThenLaunchReachesTheLaunchState := by
  intro cfg image s hl h
  rw [launchState_eq_map, Option.map_eq_some_iff] at h
  obtain ⟨m, hm, rfl⟩ := h
  have hLoad := applyAll_load (core := State.loaded cfg []) [.launch] hm
  simp only [Nat.zero_add] at hLoad
  exact hLoad.trans (applyAll_cons_eq_next_iff.2 ⟨_, if_pos hl, rfl⟩)

end Sys2Proof.Machine
end

section
/-! When a step is made and when it faults (40_fetch_decode_cycle.md R70 and R75, 60_exceptions.md R123), and two short
runs (43_control_transfer.md R105 and R106). -/

namespace Sys2Proof.Machine

/-! ### When a step is made -/

/-- Settles O7: the legality of the configuration is the first test of a step. -/
theorem illegalConfigurationIsRefused : Obligations.IllegalConfigurationIsRefused := fun _ h => if_neg h

/-- A state that is RUNNING in a legal configuration has a step (R70). -/
theorem exists_step_of_ready {s : State} (hs : s.Ready) : ∃ t, step s = .next t := by
  rw [step_of_ready hs]
  cases s.fetchInstr with
  | error r => exact ⟨_, rfl⟩
  | ok i => exact exec_next i s

/-- Settles O16: a RUNNING state has a step (`exists_step_of_ready`), and only such a state (`step_cases`); the other two
run states answer their outcomes. -/
theorem stepsExactlyWhileRunning : Obligations.StepsExactlyWhileRunning := by
  refine fun s hl => ⟨⟨fun ⟨t, h⟩ => ?_, fun hr => exists_step_of_ready ⟨hl, hr⟩⟩, fun hr => ?_, fun hr => ?_⟩
  · obtain ⟨⟨-, hr⟩, -⟩ := step_cases h
    exact hr
  · simp only [step, if_pos hl, hr]
  · simp only [step, if_pos hl, hr]

/-! ### What a step runs, and when it faults -/

/-- Settles O17: the instruction decoded is the one whose bytes are there. -/
theorem stepRunsTheDecodedInstruction : Obligations.StepRunsTheDecodedInstruction := by
  intro s i rest hs hd
  obtain ⟨op, a, b, hH, rfl⟩ := holds_of_decode_bytesAtPc hs.1 hd
  exact step_of_holds hs hH

/-- An instruction has an effect only if its register operands all name a register. -/
theorem Effect.wellFormed {i : Instr} {s t : State} (h : Effect s i t) : i.wellFormed = true :=
  badOperand_eq_none_iff.1 h.badOperand_eq_none

/-- Settles O22: where the fetch faults nothing is decoded; where it does not, the step faults exactly if the decoded
instruction is not well formed. -/
theorem completeSetOfFaultConditions : Obligations.CompleteSetOfFaultConditions := by
  intro s t h
  obtain ⟨⟨⟨-, -, hnd⟩, hr⟩, ⟨r, hF, rfl⟩ | ⟨op, a, b, hH, he⟩⟩ := step_cases h
  · obtain ⟨e, hd⟩ := hF.decode_bytesAtPc hnd
    exact iff_of_true rfl fun i rest hd' => by cases hd.symm.trans hd'
  · obtain ⟨rest, hd⟩ := hH.decode_bytesAtPc hnd
    rcases exec_cases he with hE | ⟨operand, -, hw, -, rfl⟩
    · refine iff_of_false (hE.runState_ne_faulted hr) fun hAll => ?_
      cases (hAll _ rest hd).symm.trans hE.wellFormed
    · refine iff_of_true rfl fun i rest' hd' => ?_
      cases hd.symm.trans hd'
      exact hw

/-- A cell that is not listed reads 0 (20_memory.md R31). -/
theorem Memory.read_of_not_listed {m : Memory} {a : Nat} (h : ∀ cell ∈ m, cell.1 ≠ a) : m.read a = 0 := by
  induction m with
  | nil => rfl
  | cons hd tl ih =>
    obtain ⟨hHead, hTail⟩ := List.forall_mem_cons.1 h
    rw [Memory.read, if_neg hHead]
    exact ih hTail

/-- Settles O20: the byte at `pc` is 0 (`Memory.read_of_not_listed`), which is no opcode byte. -/
theorem unwrittenMemoryIsUnsupportedOpcode : Obligations.UnwrittenMemoryIsUnsupportedOpcode := by
  intro s hs hpc hUnlisted h0
  have hByte : s.byteAt? 0 = some 0 := by
    rw [State.byteAt?_of_lt hpc, Nat.add_zero, Memory.read_of_not_listed hUnlisted]
  exact step_of_fetchFault hs (.unsupportedOpcode 0 hByte h0)

/-! ### The ALU's unassigned select -/

/-- Only select 3 gives no output (R123). -/
theorem aluBlock_eq_none_iff {select : BitVec 2} {a b : Byte} : aluBlock select a b = none ↔ select = 3 := by
  obtain rfl | rfl | rfl | rfl : select = 0 ∨ select = 1 ∨ select = 2 ∨ select = 3 := by decide +revert
  · exact iff_of_false nofun (by decide)
  · exact iff_of_false nofun (by decide)
  · exact iff_of_false nofun (by decide)
  · exact iff_of_true rfl rfl

theorem aluApply_eq_error_iff {select : BitVec 2} {ir : Byte} {ra rb : RegIdx} {s : State} :
    aluApply select ir ra rb s = .error (.unsupportedAluOperation ir select) ↔ select = 3 := by
  rw [← aluBlock_eq_none_iff (a := s.readReg ra) (b := s.readReg rb), aluApply]
  rcases aluBlock select (s.readReg ra) (s.readReg rb) with _ | v | f <;> simp

/-- Settles O25: only select 3 raises it (`aluApply_eq_error_iff`), and none of the faults of a step has that cause. -/
theorem unsupportedAluOperationIsNeverRaised : Obligations.UnsupportedAluOperationIsNeverRaised := by
  refine ⟨fun select ir ra rb s => ⟨aluApply_eq_error_iff.symm, rfl⟩, fun s t h hf => ?_⟩
  rcases step_faulted_cases h hf with ⟨r, hF, rfl⟩ | ⟨op, a, b, operand, -, -, rfl⟩
  · cases hF <;> nofun
  · nofun

/-! ### A jump to itself -/

/-- A jump to the address in `pc` changes nothing. -/
theorem State.jumpTo_eq_self {s : State} {r : RegIdx} (h : (s.readReg r).toNat = s.pc.toNat) : s.jumpTo r = s := by
  have hpc : zext9 (s.readReg r) = s.pc := BitVec.eq_of_toNat_eq ((zext9_toNat _).trans h)
  rw [State.jumpTo, hpc]
  rfl

/-- Settles O57: the step leads to the same state (`State.jumpTo_eq_self`), and by induction so does a run. -/
theorem jumpToItselfNeverEnds : Obligations.JumpToItselfNeverEnds := by
  intro s r hs h0 h1 hx k
  have hH : s.Holds .jmp (regByte r) 0 := ⟨h0, fun _ => h1, nofun⟩
  have hStep : step s = .next (s.jumpTo r) := (step_of_holds hs hH).trans (exec_of_effect (.jmp r))
  rw [State.jumpTo_eq_self hx] at hStep
  induction k with
  | zero => rfl
  | succ k ih => exact run_succ_eq_next_iff.2 ⟨s, hStep, ih⟩

/-! ### A comparison and then a jump -/

/-- From a state further on in the same memory the same bytes are seen. -/
theorem State.byteAt?_of_pc_eq_add {s t : State} {n : Nat} (hpc : t.pc.toNat = s.pc.toNat + n) (hMem : t.mem = s.mem)
    (hCfg : t.cfg = s.cfg) (k : Nat) : t.byteAt? k = s.byteAt? (n + k) := by
  simp only [State.byteAt?, hpc, hMem, hCfg, Nat.add_assoc]

theorem compareFlags_E (a b : Byte) : (compareFlags a b).E = decide (a = b) := by
  simp [compareFlags, BitVec.toNat_inj]

/-- The state after a comparison. -/
def State.compared (s : State) (ra rb : RegIdx) : State :=
  (s.setFlags (compareFlags (s.readReg ra) (s.readReg rb))).advance 2

/-- Settles O54: CMP leads to the next instruction with E set by its comparison (`compareFlags_E`), and JEQ jumps as E
says. -/
theorem jumpRightAfterCompareSeesIt : Obligations.JumpRightAfterCompareSeesIt := by
  intro s ra rb rt hs h0 h1 h2 h3 h4
  have hCap : s.cfg.memCap ≤ 256 := hs.1.2.1
  have hLast : s.pc.toNat + 4 < s.cfg.memCap := by
    rw [← Nat.not_le, ← State.byteAt?_eq_none, h4]
    exact Option.some_ne_none _
  have hpc : (s.compared ra rb).pc.toNat = s.pc.toNat + 3 :=
    pcAdder_toNat (pc := s.pc) (by omega) le_rfl
  have hByte := State.byteAt?_of_pc_eq_add (t := s.compared ra rb) hpc rfl rfl
  have hCmp : s.Holds .cmp (regByte ra) (regByte rb) := ⟨h0, fun _ => h1, fun _ => h2⟩
  have hJeq : (s.compared ra rb).Holds .jeq (regByte rt) 0 :=
    ⟨(hByte 0).trans h3, fun _ => (hByte 1).trans h4, nofun⟩
  have hFirst : step s = .next (s.compared ra rb) := (step_of_holds hs hCmp).trans (exec_of_effect (.cmp ra rb))
  have hSecond := (step_of_holds (s := s.compared ra rb) hs hJeq).trans (exec_of_effect (.jeq rt))
  have hE : (s.compared ra rb).flags.E = decide (s.x[ra] = s.x[rb]) := compareFlags_E ..
  rw [hE] at hSecond
  refine ⟨_, run_succ_eq_next_iff.2 ⟨_, hFirst, run_succ_eq_next_iff.2 ⟨_, hSecond, rfl⟩⟩, fun hEq => ?_, fun hNe => ?_⟩
  · rw [decide_eq_true hEq]
    exact zext9_toNat _
  · rw [decide_eq_false hNe]
    exact (pcAdder_toNat (by omega) (by decide)).trans (by rw [hpc])

end Sys2Proof.Machine
end

section
/-! The memory read port, the order of writes (20_memory.md R31, 70_reset_and_hazards.md R142), the addresses a step drives
(10_state.md R22, 40_fetch_decode_cycle.md R73), and the host's view (10_state.md R21). -/

namespace Sys2Proof.Machine

/-! ### Reads and writes -/

/-- A listed cell reads as listed. -/
theorem Memory.read_of_mem {m : Memory} {a : Nat} {v : Byte} (hm : m.wf) (h : (a, v) ∈ m) : m.read a = v := by
  induction m with
  | nil => cases h
  | cons hd tl ih =>
    obtain ⟨k, w⟩ := hd
    obtain ⟨hk, -, htl⟩ := Memory.wf_cons.1 hm
    rcases List.mem_cons.1 h with hHead | hTail
    · cases hHead
      exact if_pos rfl
    · rw [Memory.read, if_neg (hk _ hTail).ne]
      exact ih htl hTail

/-- Settles O14: the bounds check, and what a listed and an unlisted cell read as (`Memory.read_of_mem`,
`Memory.read_of_not_listed`). -/
theorem readsAreBoundsChecked : Obligations.ReadsAreBoundsChecked := fun _ _ _ hm =>
  ⟨memRead_eq_none.2, fun h => memRead_eq_some.2 ⟨h, rfl⟩, fun _ => Memory.read_of_mem hm, Memory.read_of_not_listed⟩

theorem Memory.read_write {m : Memory} (a b : Nat) (v : Byte) (hm : m.wf) :
    (m.write a v).read b = if b = a then v else m.read b := by
  split
  next h => rw [h, Memory.read_write_same a v hm]
  next h => exact Memory.read_write_other v h

/-- Settles O11: both orders leave the same byte in each cell, and the form is canonical (`Memory.ext_read`). -/
theorem loaderWritesCommute : Obligations.LoaderWritesCommute := by
  intro m a b v w hm hab
  have hA := Memory.write_wf a v hm
  have hB := Memory.write_wf b w hm
  refine Memory.ext_read (Memory.write_wf b w hA) (Memory.write_wf a v hB) fun n => ?_
  rw [Memory.read_write b n w hA, Memory.read_write a n v hB, Memory.read_write a n v hm, Memory.read_write b n w hm]
  split
  next h => rw [if_neg (h ▸ hab.symm)]
  next => rfl

/-! ### The addresses a step drives -/

/-- The addresses of an instruction whose bytes are there all pass the bounds check, and are consecutive. -/
theorem State.Holds.readAddrs_toNat {s : State} {op : Opcode} {a b : Byte} (hH : s.Holds op a b) (hl : s.cfg.Legal) :
    s.readAddrs.map BitVec.toNat = List.range' s.pc.toNat (op.nOps + 1) := by
  have hLast := hH.add_nOps_lt
  obtain ⟨h0, -⟩ := hH
  have hOperand : ∀ k < op.nOps, (s.operandAddr (k + 1)).toNat = s.pc.toNat + 1 + k := fun k hk => by
    have := nOps_le_two op
    rw [operandAddr_toNat hl (by omega) (by omega)]
    omega
  rw [State.readAddrs_byteOf hl h0, List.filter_eq_self.2, List.map_cons, List.map_map, List.range'_succ,
    List.range'_eq_map_range]
  · exact congrArg _ (List.map_congr_left fun k hk => hOperand k (List.mem_range.1 hk))
  · intro addr hAddr
    obtain ⟨k, hk, rfl⟩ := List.mem_map.1 hAddr
    have hk := List.mem_range.1 hk
    rw [decide_eq_true_eq, hOperand k hk]
    omega

/-- On the 8-bit port the addresses are the same numbers. -/
theorem fetchAddrs_toNat {s : State} (hs : s.Ready) :
    s.fetchAddrs.map BitVec.toNat = s.readAddrs.map BitVec.toNat := by
  rw [fetchAddrs_running hs.2, List.map_map]
  exact List.map_congr_left fun addr hAddr => readAddrs_port hs.1 hAddr

theorem State.fetchAddrs_of_ne_running {s : State} (h : s.runState ≠ .running) : s.fetchAddrs = [] := by
  unfold State.fetchAddrs
  split
  next hr => exact absurd hr h
  next => rfl
  next => rfl

/-- Settles O30: the addresses have passed the bounds check (`readAddrs_lt`) and lose nothing on the port
(`fetchAddrs_toNat`); for an instruction that is there they are consecutive (`State.Holds.readAddrs_toNat`). -/
theorem onlyTheInstructionsBytesAreRead : Obligations.OnlyTheInstructionsBytesAreRead := by
  refine fun s hl => ⟨fun addr hAddr => ?_, State.fetchAddrs_of_ne_running, fun i rest hr hd => ?_⟩
  · by_cases hr : s.runState = .running
    · have hPort := List.mem_map_of_mem (f := BitVec.toNat) hAddr
      rw [fetchAddrs_toNat ⟨hl, hr⟩] at hPort
      obtain ⟨addr', hRead, hEq⟩ := List.mem_map.1 hPort
      rw [← hEq]
      exact readAddrs_lt hRead
    · rw [State.fetchAddrs_of_ne_running hr] at hAddr
      cases hAddr
  · obtain ⟨op, a, b, hH, rfl⟩ := holds_of_decode_bytesAtPc hl hd
    rw [fetchAddrs_toNat ⟨hl, hr⟩, hH.readAddrs_toNat hl, Instr.length, opcode_assemble]

/-! ### Another memory -/

/-- The state with other contents of memory. -/
def State.withMem (s : State) (m : Memory) : State := { s with mem := m }

theorem State.jumpIf_withMem (s : State) (m : Memory) (taken : Bool) (r : RegIdx) :
    (s.withMem m).jumpIf taken r = (s.jumpIf taken r).withMem m := by
  cases taken <;> rfl

/-- No instruction looks at memory. -/
theorem Effect.withMem {i : Instr} {s t : State} (m : Memory) (h : Effect s i t) :
    Effect (s.withMem m) i (t.withMem m) := by
  cases h with
  | ldi | prn | mul | cmp | jmp | hlt => constructor
  | jeq | jne =>
    rw [← State.jumpIf_withMem]
    constructor

theorem exec_withMem {i : Instr} {s t : State} (m : Memory) (h : exec i s = .next t) :
    exec i (s.withMem m) = .next (t.withMem m) := by
  rcases exec_cases h with hE | ⟨operand, -, -, hb, rfl⟩
  · exact exec_of_effect (hE.withMem m)
  · exact exec_of_badOperand _ hb

/-- A byte at `pc` is read. -/
theorem State.pc_mem_readAddrs {s : State} {ir : Byte} (hl : s.cfg.Legal) (h0 : s.byteAt? 0 = some ir) :
    s.pc ∈ s.readAddrs := by
  by_cases hn : ir ∈ s.cfg.opcodes
  · obtain ⟨op, hr⟩ := Option.ne_none_iff_exists'.1 fun hr => recognise_eq_none.1 hr hn
    rw [State.readAddrs_byteOf hl (h0.trans (congrArg some (byteOf_of_recognise hr).symm))]
    exact List.mem_cons_self
  · rw [State.readAddrs_of_notMem h0 hn]
    exact List.mem_cons_self

/-- An operand byte the instruction has is read where it exists. -/
theorem State.operandAddr_mem_readAddrs {s : State} {op : Opcode} {k : Nat} (hl : s.cfg.Legal)
    (h0 : s.byteAt? 0 = some (s.cfg.byteOf op)) (hk : k + 1 ≤ op.nOps) (hlt : s.pc.toNat + (k + 1) < s.cfg.memCap) :
    s.operandAddr (k + 1) ∈ s.readAddrs ∧ (s.operandAddr (k + 1)).toNat = s.pc.toNat + (k + 1) := by
  have hAddr := operandAddr_toNat (k := k + 1) hl (byteAt?_zero_lt h0) (hk.trans (nOps_le_two op))
  refine ⟨?_, hAddr⟩
  rw [State.readAddrs_byteOf hl h0]
  refine List.mem_cons_of_mem _ (List.mem_filter.2 ⟨List.mem_map.2 ⟨k, List.mem_range.2 hk, rfl⟩, ?_⟩)
  rwa [decide_eq_true_eq, hAddr]

theorem State.byteAt?_withMem {s : State} {m : Memory} {k : Nat}
    (h : s.pc.toNat + k < s.cfg.memCap → m.read (s.pc.toNat + k) = s.mem.read (s.pc.toNat + k)) :
    (s.withMem m).byteAt? k = s.byteAt? k := by
  by_cases hlt : s.pc.toNat + k < s.cfg.memCap
  · rw [State.byteAt?_of_lt hlt, ← h hlt]
    exact State.byteAt?_of_lt (s := s.withMem m) hlt
  · rw [State.byteAt?_of_le (Nat.not_lt.1 hlt)]
    exact State.byteAt?_of_le (s := s.withMem m) (Nat.not_lt.1 hlt)

/-- The other memory agrees with the state's on the addresses the fetch unit reads. -/
def State.AgreesOnRead (s : State) (m : Memory) : Prop :=
  ∀ addr ∈ s.readAddrs, m.read addr.toNat = s.mem.read addr.toNat

theorem State.AgreesOnRead.byteAt?_zero {s : State} {m : Memory} (h : s.AgreesOnRead m) (hl : s.cfg.Legal) :
    (s.withMem m).byteAt? 0 = s.byteAt? 0 :=
  State.byteAt?_withMem fun hlt => h s.pc (State.pc_mem_readAddrs hl (State.byteAt?_of_lt hlt))

theorem State.AgreesOnRead.byteAt?_operand {s : State} {m : Memory} {op : Opcode} {k : Nat} (h : s.AgreesOnRead m)
    (hl : s.cfg.Legal) (h0 : s.byteAt? 0 = some (s.cfg.byteOf op)) (hk : k + 1 ≤ op.nOps) :
    (s.withMem m).byteAt? (k + 1) = s.byteAt? (k + 1) :=
  State.byteAt?_withMem fun hlt => by
    obtain ⟨hRead, hAddr⟩ := State.operandAddr_mem_readAddrs hl h0 hk hlt
    rw [← hAddr]
    exact h _ hRead

theorem State.Holds.withMem {s : State} {m : Memory} {op : Opcode} {a b : Byte} (hH : s.Holds op a b)
    (h : s.AgreesOnRead m) (hl : s.cfg.Legal) : (s.withMem m).Holds op a b := by
  obtain ⟨h0, h1, h2⟩ := hH
  exact ⟨(h.byteAt?_zero hl).trans h0, fun hn => (h.byteAt?_operand hl h0 hn).trans (h1 hn),
    fun hn => (h.byteAt?_operand hl h0 hn.ge).trans (h2 hn)⟩

theorem FetchFault.withMem {s : State} {m : Memory} {r : Raise} (hF : FetchFault s r) (h : s.AgreesOnRead m)
    (hl : s.cfg.Legal) : FetchFault (s.withMem m) r := by
  cases hF with
  | opcodeFetch h0 => exact .opcodeFetch ((h.byteAt?_zero hl).trans h0)
  | unsupportedOpcode ir h0 hn => exact .unsupportedOpcode ir ((h.byteAt?_zero hl).trans h0) hn
  | operandA op h0 hn h1 =>
    exact .operandA op ((h.byteAt?_zero hl).trans h0) hn ((h.byteAt?_operand hl h0 hn).trans h1)
  | operandB op a h0 hn h1 h2 =>
    exact .operandB op a ((h.byteAt?_zero hl).trans h0) hn ((h.byteAt?_operand hl h0 (by omega)).trans h1)
      ((h.byteAt?_operand hl h0 hn.ge).trans h2)

/-- Settles O31: the same fetch fault (`FetchFault.withMem`), or the same instruction (`State.Holds.withMem`), which does
not look at memory (`exec_withMem`). -/
theorem otherMemoryDoesNotAffectTheStep : Obligations.OtherMemoryDoesNotAffectTheStep := by
  intro s t m hm h
  change step (s.withMem m) = .next (t.withMem m)
  obtain ⟨hs, hStep⟩ := step_cases h
  have hAgree : s.AgreesOnRead m := fun addr hAddr => by
    rw [← readAddrs_port hs.1 hAddr]
    refine hm _ ?_
    rw [fetchAddrs_running hs.2]
    exact List.mem_map_of_mem hAddr
  rcases hStep with ⟨r, hF, rfl⟩ | ⟨op, a, b, hH, he⟩
  · exact step_of_fetchFault (s := s.withMem m) hs (hF.withMem hAgree hs.1)
  · exact (step_of_holds (s := s.withMem m) hs (hH.withMem hAgree hs.1)).trans (exec_withMem m he)

/-! ### The host's view -/

theorem State.finalView_of_running {s : State} (h : s.runState = .running) : s.finalView = none := by
  simp [State.finalView, State.ended, h]

theorem State.finalView_of_ended {s : State} (h : s.ended = true) : s.finalView = some ⟨s.x, s.pc, s.flags, s.mem⟩ :=
  if_pos h

/-- Different causes have different codes (R15). -/
theorem FaultCause.code_injective : Function.Injective FaultCause.code := by
  intro c d
  cases c <;> cases d <;> decide

/-- Different sub-kinds have different codes (R20). -/
theorem FaultSub.code_injective : Function.Injective FaultSub.code := by
  intro c d
  cases c <;> cases d <;> decide

/-- Settles O13: the codes are those of the tables, and different values have different codes; the final view is there
exactly after the end. -/
theorem hostViewOfTheState : Obligations.HostViewOfTheState := by
  intro s
  have hCause := fun c => (FaultCause.code_injective.eq_iff (a := s.fault.cause) (b := c)).symm
  have hSub := fun c => (FaultSub.code_injective.eq_iff (a := s.fault.sub) (b := c)).symm
  exact ⟨fun hr => ⟨congrArg RunState.code hr, State.finalView_of_running hr⟩,
    fun hr => ⟨congrArg RunState.code hr, State.finalView_of_ended (State.ended_iff.2 (.inl hr))⟩,
    fun hr => ⟨congrArg RunState.code hr, State.finalView_of_ended (State.ended_iff.2 (.inr hr))⟩,
    hCause .none, hCause .unsupportedOpcode, hCause .unsupportedAluOperation, hCause .outOfRangeAccess,
    hSub .none, hSub .opcodeFetch, hSub .operandFetch, hSub .regIndex, rfl, rfl, rfl⟩

end Sys2Proof.Machine
end

section
/-! The instructions as `exec` runs them: results, the index check and frames (40_fetch_decode_cycle.md R74; the files
41_load_immediate_and_output.md to 44_halt.md). -/

namespace Sys2Proof.Machine

/-! ### Results -/

/-- Settles O40: the effects of LDI and PRN. -/
theorem loadAndPrintComplete : Obligations.LoadAndPrintComplete := fun _ r imm =>
  ⟨exec_of_effect (.ldi r imm), exec_of_effect (.prn r)⟩

/-- Settles O41: the effects of MUL and CMP; E is equality of the bytes (`compareFlags_E`). -/
theorem multiplyAndCompareComplete : Obligations.MultiplyAndCompareComplete := by
  refine fun s ra rb => ⟨exec_of_effect (.mul ra rb), ?_⟩
  rw [← compareFlags_E]
  exact exec_of_effect (.cmp ra rb)

/-- Settles O42: the effects of the three jumps, for both values of E. -/
theorem jumpsComplete : Obligations.JumpsComplete := by
  intro s r
  have hJeq := exec_of_effect (Effect.jeq (s := s) r)
  have hJne := exec_of_effect (Effect.jne (s := s) r)
  refine ⟨exec_of_effect (.jmp r), ?_, ?_⟩
  · rw [hJeq]
    cases s.flags.E <;> rfl
  · rw [hJne]
    cases s.flags.E <;> rfl

/-- Settles O43: the effect of HLT. -/
theorem haltCompletes : Obligations.HaltCompletes := fun _ => exec_of_effect .hlt

/-- Settles O44: operand A is the first the check stops on, and for MUL and CMP operand B the second; LDI has its effect
whatever its operand B is. -/
theorem registerIndexCheck : Obligations.RegisterIndexCheck := by
  intro s a b
  refine ⟨fun ha => ?_, fun ha hb => ?_, fun ha => ?_⟩
  · have hA : ∀ i : Instr, badOperand i = some a → exec i s = .next (s.badIndex (s.cfg.byteOf i.opcode) a) :=
      fun _ => exec_of_badOperand s
    exact ⟨hA (.ldi a b) (if_pos ha), hA (.prn a) (if_pos ha), hA (.mul a b) (if_pos ha), hA (.cmp a b) (if_pos ha),
      hA (.jmp a) (if_pos ha), hA (.jeq a) (if_pos ha), hA (.jne a) (if_pos ha)⟩
  · have hB : (if 8 ≤ a.toNat then some a else if 8 ≤ b.toNat then some b else none) = some b := by
      rw [if_neg (Nat.not_le.2 ha), if_pos hb]
    exact ⟨exec_of_badOperand (i := .mul a b) s hB, exec_of_badOperand (i := .cmp a b) s hB⟩
  · obtain ⟨t, ht, hE⟩ := exec_effect_of_badOperand_eq_none (i := .ldi a b) s (if_neg (Nat.not_le.2 ha))
    refine ⟨t, ht, ?_, hE.fault_eq⟩
    exact hE.runState_cases.resolve_right nofun

/-! ### What each effect leaves -/

theorem Effect.runState_eq {i : Instr} {s t : State} (h : Effect s i t) (hi : i ≠ .hlt) : t.runState = s.runState :=
  h.runState_cases.resolve_right fun hHlt => hi hHlt.1

theorem Effect.flags_eq {i : Instr} {s t : State} (h : Effect s i t) (hi : i.opcode ≠ .cmp) : t.flags = s.flags := by
  rcases h.flags_cases with ⟨-, hSame⟩ | ⟨hCmp, -⟩
  · exact hSame
  · exact absurd hCmp hi

theorem Effect.out_eq {i : Instr} {s t : State} (h : Effect s i t) (hi : i.opcode ≠ .prn) : t.out = s.out := by
  rcases h.out_cases with hSame | ⟨r, rfl, -⟩
  · exact hSame
  · exact absurd rfl hi

@[simp] theorem State.jumpIf_x (s : State) (taken : Bool) (r : RegIdx) : (s.jumpIf taken r).x = s.x := by
  cases taken <;> rfl

/-- LDI and MUL write the register operand A names; no other instruction writes a register. -/
theorem Effect.x_cases {i : Instr} {s t : State} (h : Effect s i t) :
    t.x = s.x ∨ ∃ r b v, (i = .ldi (regByte r) b ∨ i = .mul (regByte r) b) ∧ t.x = (s.writeReg r v).x := by
  cases h with
  | ldi r imm => exact .inr ⟨r, imm, imm, .inl rfl, rfl⟩
  | mul ra rb => exact .inr ⟨ra, regByte rb, _, .inr rfl, rfl⟩
  | prn | cmp | jmp | hlt => exact .inl rfl
  | jeq | jne => exact .inl (State.jumpIf_x ..)

theorem Effect.readReg_eq {i : Instr} {s t : State} (h : Effect s i t) (hLdi : i.opcode ≠ .ldi)
    (hMul : i.opcode ≠ .mul) (r : RegIdx) : t.readReg r = s.readReg r := by
  rcases h.x_cases with hx | ⟨ra, b, v, rfl | rfl, -⟩
  · exact State.readReg_congr hx r
  · exact absurd rfl hLdi
  · exact absurd rfl hMul

/-- Every register but the one operand A of LDI or MUL names keeps its value. -/
theorem Effect.readReg_other {i : Instr} {s t : State} {a b : Byte} (h : Effect s i t)
    (hi : i = .ldi a b ∨ i = .mul a b) {r : RegIdx} (hr : r.val ≠ a.toNat) : t.readReg r = s.readReg r := by
  rcases h.x_cases with hx | ⟨ra, b', v, hi', hx⟩
  · exact State.readReg_congr hx r
  · obtain rfl : regByte ra = a := by
      rcases hi' with rfl | rfl <;> rcases hi with hi | hi <;> cases hi <;> rfl
    rw [regByte_toNat] at hr
    rw [State.readReg_congr hx, State.readReg_writeReg_other _ _ _ _ fun hEq => hr (congrArg Fin.val hEq)]

/-! ### Frames -/

/-- An instruction has its effect if its register operands all name a register, and else takes a fault. -/
theorem exec_wellFormed_cases {i : Instr} {s t : State} (h : exec i s = .next t) :
    (i.wellFormed = true ∧ Effect s i t) ∨ (i.wellFormed = false ∧ ∃ r, t = s.takeFault r) := by
  rcases exec_cases h with hE | ⟨operand, -, hw, -, ht⟩
  · exact .inl ⟨hE.wellFormed, hE⟩
  · exact .inr ⟨hw, _, ht⟩

/-- Settles O45: only operand A's register is written (`Effect.readReg_other`), and a form that faults leaves the
registers. -/
theorem registerWritersFrame : Obligations.RegisterWritersFrame := by
  intro s t i a b hi h
  rcases exec_wellFormed_cases h with ⟨hw, hE⟩ | ⟨hw, r, rfl⟩ <;> rw [hw]
  · have hHlt : i ≠ .hlt := by rcases hi with rfl | rfl <;> nofun
    have hCmp : i.opcode ≠ .cmp := by rcases hi with rfl | rfl <;> nofun
    have hPrn : i.opcode ≠ .prn := by rcases hi with rfl | rfl <;> nofun
    exact ⟨fun r => hE.readReg_other hi, hE.flags_eq hCmp, hE.out_eq hPrn, hE.cfg_eq, fun _ => by rw [hE.mem_eq],
      fun _ => ⟨hE.runState_eq hHlt, hE.fault_eq⟩, nofun⟩
  · exact ⟨fun _ _ => rfl, rfl, rfl, rfl, fun _ => rfl, nofun, fun _ => ⟨rfl, fun _ => rfl⟩⟩

/-- Settles O46: CMP is none of the instructions that write a register or the output. -/
theorem compareFrame : Obligations.CompareFrame := by
  intro s t a b h
  rcases exec_wellFormed_cases h with ⟨hw, hE⟩ | ⟨hw, r, rfl⟩ <;> rw [hw]
  · exact ⟨hE.readReg_eq nofun nofun, hE.out_eq nofun, hE.cfg_eq, fun _ => by rw [hE.mem_eq],
      fun _ => ⟨hE.runState_eq nofun, hE.fault_eq⟩, nofun⟩
  · exact ⟨fun _ => rfl, rfl, rfl, fun _ => rfl, nofun, fun _ => ⟨rfl, rfl⟩⟩

/-- The effect of a PRN appends one value. -/
theorem Effect.out_prn {s t : State} {a : Byte} (h : Effect s (.prn a) t) : ∃ v, t.out = s.out ++ [v] := by
  cases h with
  | prn r => exact ⟨s.readReg r, rfl⟩

/-- Settles O47: PRN writes no register and no flag, and appends one value (`Effect.out_prn`). -/
theorem printFrame : Obligations.PrintFrame := by
  intro s t a h
  rcases exec_wellFormed_cases h with ⟨hw, hE⟩ | ⟨hw, r, rfl⟩ <;> rw [hw]
  · obtain ⟨v, hOut⟩ := hE.out_prn
    exact ⟨hE.readReg_eq nofun nofun, hE.flags_eq nofun, hE.cfg_eq, fun _ => by rw [hE.mem_eq], ⟨[v], hOut.symm⟩,
      fun _ => ⟨hE.runState_eq nofun, hE.fault_eq, by rw [hOut, List.length_append, List.length_singleton]⟩, nofun⟩
  · exact ⟨fun _ => rfl, rfl, rfl, fun _ => rfl, List.prefix_rfl, nofun, fun _ => ⟨rfl, rfl⟩⟩

/-- Settles O48: a jump is none of the instructions that write a register, a flag or the output. -/
theorem jumpsFrame : Obligations.JumpsFrame := by
  intro s t i a hi h
  rcases exec_wellFormed_cases h with ⟨hw, hE⟩ | ⟨hw, r, rfl⟩ <;> rw [hw]
  · have hJump : i.opcode.control.jmp ≠ .none := by rcases hi with rfl | rfl | rfl <;> nofun
    have hNot : ∀ op : Opcode, op.control.jmp = .none → i.opcode ≠ op := fun op hop hEq => hJump (hEq ▸ hop)
    have hHlt : i ≠ .hlt := fun hEq => hNot .hlt rfl (by rw [hEq]; rfl)
    exact ⟨hE.readReg_eq (hNot .ldi rfl) (hNot .mul rfl), hE.flags_eq (hNot .cmp rfl), hE.out_eq (hNot .prn rfl),
      hE.cfg_eq, fun _ => by rw [hE.mem_eq], fun _ => ⟨hE.runState_eq hHlt, hE.fault_eq⟩, nofun⟩
  · exact ⟨fun _ => rfl, rfl, rfl, rfl, fun _ => rfl, nofun, fun _ => rfl⟩

/-- Settles O49: HLT is none of the instructions that write a register, a flag or the output, and its effect leaves `pc`. -/
theorem haltFrame : Obligations.HaltFrame := by
  intro s t h
  rcases exec_wellFormed_cases h with ⟨-, hE⟩ | ⟨hw, -⟩
  · have hpc : t.pc = s.pc := by
      cases hE
      rfl
    exact ⟨hE.readReg_eq nofun nofun, hpc, hE.flags_eq nofun, hE.out_eq nofun, hE.cfg_eq, hE.fault_eq,
      fun _ => by rw [hE.mem_eq]⟩
  · cases hw

end Sys2Proof.Machine
end

section
/-! The program text (30_encoding.md R61). -/

namespace Sys2Proof.Machine

/-! ### Literals -/

/-- The character of a bit. -/
def bitChar (b : Bool) : Char := if b then '1' else '0'

@[simp] theorem digitBit_bitChar (b : Bool) : digitBit (bitChar b) = some b := by
  cases b <;> rfl

theorem digitBit_eq_none_iff {d : Char} : digitBit d = none ↔ ¬ (d = '0' ∨ d = '1') := by
  unfold digitBit
  by_cases h0 : d = '0' <;> by_cases h1 : d = '1' <;> simp [h0, h1]

/-- A character that is no digit makes the row of digits malformed, wherever it stands. -/
theorem digitBits_eq_none {ds : List Char} {d : Char} (v : Byte) (hd : d ∈ ds) (hn : digitBit d = none) :
    digitBits v ds = none := by
  induction ds generalizing v with
  | nil => cases hd
  | cons e ds ih =>
    rw [digitBits]
    rcases List.mem_cons.1 hd with rfl | hd
    · rw [hn]
    · cases digitBit e with
      | none => rfl
      | some b => exact ih _ hd

/-- What is not eight digits is no literal. -/
theorem literal_eq_none {ds : List Char} (h : ¬ (ds.length = 8 ∧ ∀ d ∈ ds, d = '0' ∨ d = '1')) : literal ds = none := by
  unfold literal
  split
  next hLength =>
    push Not at h
    obtain ⟨d, hd, hn⟩ := h hLength
    exact digitBits_eq_none 0 hd (digitBit_eq_none_iff.2 (by tauto))
  next => rfl

theorem bitChars_eq (b : Byte) : bitChars b = (List.range 8).map fun k => bitChar (b.getLsbD (7 - k)) := rfl

/-- The eight digits of a byte, most significant bit first, are read as that byte. -/
theorem literal_bitChars (b : Byte) : literal (bitChars b) = some b := by
  have hRange : List.range 8 = [0, 1, 2, 3, 4, 5, 6, 7] := rfl
  rw [literal, if_pos (by simp [bitChars])]
  simp only [bitChars_eq, hRange, List.map_cons, List.map_nil, digitBits, digitBit_bitChar, Option.some.injEq]
  refine BitVec.eq_of_getLsbD_eq fun i hi => ?_
  interval_cases i <;> simp

/-! ### White space and comments -/

theorem dropWhile_blank_append {pre : List Char} (h : Blank pre) (ds : List Char) :
    (pre ++ ds).dropWhile Char.isWhitespace = ds.dropWhile Char.isWhitespace :=
  List.dropWhile_append_of_pos h

theorem dropWhile_whitespace_eq_self {ds : List Char} (h : ∀ d, ds.head? = some d → d.isWhitespace = false) :
    ds.dropWhile Char.isWhitespace = ds := by
  cases ds with
  | nil => rfl
  | cons d ds => exact List.dropWhile_cons_of_neg (by simp [h d rfl])

theorem trimBlanks_blank {ds : List Char} (h : Blank ds) : trimBlanks ds = [] := by
  have hDrop : ds.dropWhile Char.isWhitespace = [] := List.dropWhile_eq_nil_iff.2 h
  rw [trimBlanks, hDrop]
  rfl

/-- What begins and ends with another character is left when the white space around it is left out. -/
theorem trimBlanks_append {pre body post : List Char} (hPre : Blank pre) (hPost : Blank post) (hne : body ≠ [])
    (hHead : ∀ d, body.head? = some d → d.isWhitespace = false)
    (hLast : ∀ d, body.getLast? = some d → d.isWhitespace = false) : trimBlanks (pre ++ body ++ post) = body := by
  have hFront : (pre ++ (body ++ post)).dropWhile Char.isWhitespace = body ++ post := by
    rw [dropWhile_blank_append hPre]
    exact dropWhile_whitespace_eq_self (by rwa [List.head?_append_of_ne_nil _ hne])
  have hPost' : Blank post.reverse := fun d hd => hPost d (List.mem_reverse.1 hd)
  rw [trimBlanks, List.append_assoc, hFront, List.reverse_append, dropWhile_blank_append hPost',
    dropWhile_whitespace_eq_self (by rwa [List.head?_reverse]), List.reverse_reverse]

theorem Blank.hash_notMem {ds : List Char} (h : Blank ds) : '#' ∉ ds := fun hd => by
  cases h '#' hd

/-- The comment of a line, and nothing else, is left out. -/
theorem takeWhile_textLine {pre body post : List Char} (comment : Option (List Char)) (hPre : Blank pre)
    (hPost : Blank post) (hHash : '#' ∉ body) :
    (textLine pre body post comment).takeWhile (· ≠ '#') = pre ++ body ++ post := by
  have hNone : ∀ d ∈ pre ++ body ++ post, decide (d ≠ '#') = true := by
    intro d hd
    rw [decide_eq_true_eq]
    rintro rfl
    rw [List.mem_append, List.mem_append] at hd
    exact hd.elim (fun hd => hd.elim hPre.hash_notMem hHash) hPost.hash_notMem
  unfold textLine
  rw [List.takeWhile_append_of_pos hNone]
  cases comment with
  | none => exact List.append_nil _
  | some c => exact List.append_nil _

/-! ### Lines -/

/-- A line that holds white space and a comment, or none of them, stands for nothing. -/
theorem parseLine_textLine_blank {pre post : List Char} (comment : Option (List Char)) (hPre : Blank pre)
    (hPost : Blank post) : parseLine (textLine pre [] post comment) = some none := by
  have hBlank : Blank (pre ++ [] ++ post) := by
    rw [List.append_nil]
    exact fun d hd => (List.mem_append.1 hd).elim (hPre d) (hPost d)
  rw [parseLine, takeWhile_textLine comment hPre hPost List.not_mem_nil, trimBlanks_blank hBlank]

/-- A line with something else before its comment stands for it if it is a literal, and is malformed if it is not. -/
theorem parseLine_textLine {pre body post : List Char} (comment : Option (List Char)) (hPre : Blank pre)
    (hPost : Blank post) (hne : body ≠ []) (hHash : '#' ∉ body)
    (hHead : ∀ d, body.head? = some d → d.isWhitespace = false)
    (hLast : ∀ d, body.getLast? = some d → d.isWhitespace = false) :
    parseLine (textLine pre body post comment) = (literal body).map some := by
  rw [parseLine, takeWhile_textLine comment hPre hPost hHash, trimBlanks_append hPre hPost hne hHead hLast]
  cases body with
  | nil => exact absurd rfl hne
  | cons d ds => cases h : literal (d :: ds) <;> simp [h]

theorem mem_bitChars {b : Byte} {d : Char} (h : d ∈ bitChars b) : d = '0' ∨ d = '1' := by
  rw [bitChars_eq] at h
  obtain ⟨k, -, rfl⟩ := List.mem_map.1 h
  cases b.getLsbD (7 - k)
  · exact .inl rfl
  · exact .inr rfl

/-- A line that holds a literal stands for its byte. -/
theorem parseLine_textLine_bitChars {pre post : List Char} (b : Byte) (comment : Option (List Char)) (hPre : Blank pre)
    (hPost : Blank post) : parseLine (textLine pre (bitChars b) post comment) = some (some b) := by
  have hDigit : ∀ d ∈ bitChars b, d.isWhitespace = false ∧ d ≠ '#' := by
    intro d hd
    rcases mem_bitChars hd with rfl | rfl <;> decide
  have hne : bitChars b ≠ [] := List.cons_ne_nil _ _
  rw [parseLine_textLine comment hPre hPost hne (fun hd => (hDigit '#' hd).2 rfl)
    (fun d hd => (hDigit d (List.mem_of_head? hd)).1) (fun d hd => (hDigit d (List.mem_of_getLast? hd)).1),
    literal_bitChars]
  rfl

/-! ### Texts -/

theorem parseProgram_cons_of_some {line : List Char} {lines : List (List Char)} {b : Option Byte} {bs : List Byte}
    (hLine : parseLine line = some b) (hLines : parseProgram lines = some bs) :
    parseProgram (line :: lines) = some (b.toList ++ bs) := by
  rw [parseProgram, hLine, hLines]
  cases b <;> rfl

/-- One malformed line and there is no image (60_exceptions.md R124). -/
theorem parseProgram_eq_none {line : List Char} {lines : List (List Char)} (hLine : parseLine line = none)
    (hMem : line ∈ lines) : parseProgram lines = none := by
  induction lines with
  | nil => cases hMem
  | cons line' lines ih =>
    rw [parseProgram]
    rcases List.mem_cons.1 hMem with rfl | hMem
    · rw [hLine]
    · rw [ih hMem]
      rcases parseLine line' with _ | _ | b <;> rfl

/-- Settles O10: by induction on the lines, each of which stands for its literal (`parseLine_textLine_bitChars`) or for
nothing (`parseLine_textLine_blank`); and a line that is neither is malformed (`literal_eq_none`). -/
theorem programTextRule : Obligations.ProgramTextRule := by
  refine ⟨fun lines hBlank => ?_, ?_⟩
  · induction lines with
    | nil => rfl
    | cons l lines ih =>
      obtain ⟨b, pre, post, comment⟩ := l
      obtain ⟨⟨hPre, hPost⟩, hRest⟩ := List.forall_mem_cons.1 hBlank
      have hLine : parseLine (textLine pre ((b.map bitChars).getD []) post comment) = some b := by
        cases b with
        | none => exact parseLine_textLine_blank comment hPre hPost
        | some b => exact parseLine_textLine_bitChars b comment hPre hPost
      refine (parseProgram_cons_of_some hLine (ih hRest)).trans ?_
      cases b <;> rfl
  · intro lines pre body post comment hPre hPost hne hHash hHead hLast hNot
    refine parseProgram_eq_none ?_
    rw [parseLine_textLine comment hPre hPost hne hHash hHead hLast, literal_eq_none hNot]
    rfl

end Sys2Proof.Machine
end
